-- ==== Sys2Proof/Word.lean ====
section
/-! DEFINITION. The word types of the machine (spec R7, R9, R10): 32-bit registers and addresses, bytes, 5-bit register indices. -/

namespace Sys2Proof

/-- A register, address, pc or instruction word: an unsigned 32-bit value (R7, R10). `+` wraps modulo 2^32. -/
abbrev Word := BitVec 32

/-- The unit of every bus transfer (R7, R40). -/
abbrev Byte := BitVec 8

/-- A register index: a 5-bit field of the instruction word, so no index outside 0..31 exists (R13, D15). -/
abbrev RegIdx := BitVec 5

end Sys2Proof
end

