-- ==== Sys2Proof/Syntax.lean ====
section
/-! DEFINITION. The instructions (spec/opcode_table.json), the five instruction-format records, and the reasons a word is no instruction. -/

namespace Sys2Proof

/-- The eight operations of the supported table (R73), each with its format record's fields (R64 to R68): register
indices and the immediate as the 32-bit value the handler uses (R70). -/
inductive Instr where
  /-- `lui rd, imm20` (R94); `imm20` is the unshifted field, 0 .. 0xFFFFF. -/
  | lui (rd : RegIdx) (imm20 : Word)
  /-- `jal rd, imm` (R96). -/
  | jal (rd : RegIdx) (imm : Word)
  /-- `jalr rd, imm(rs1)` (R97). -/
  | jalr (rd rs1 : RegIdx) (imm : Word)
  /-- `bne rs1, rs2, imm` (R98). -/
  | bne (rs1 rs2 : RegIdx) (imm : Word)
  /-- `lb rd, imm(rs1)` (R100). -/
  | lb (rd rs1 : RegIdx) (imm : Word)
  /-- `lbu rd, imm(rs1)` (R101). -/
  | lbu (rd rs1 : RegIdx) (imm : Word)
  /-- `sb rs2, imm(rs1)` (R102): `rs1` is the base, `rs2` the data register. -/
  | sb (rs1 rs2 : RegIdx) (imm : Word)
  /-- `addi rd, rs1, imm` (R93). -/
  | addi (rd rs1 : RegIdx) (imm : Word)
  deriving DecidableEq, Repr

/-- The operations as the dispatch names them, before any operand is decoded (R72, R73). -/
inductive Op where
  | lui | jal | jalr | bne | lb | lbu | sb | addi
  deriving DecidableEq, Repr

/-- The operation of an instruction. -/
def Instr.op : Instr → Op
  | .lui _ _ => .lui
  | .jal _ _ => .jal
  | .jalr _ _ _ => .jalr
  | .bne _ _ _ => .bne
  | .lb _ _ _ => .lb
  | .lbu _ _ _ => .lbu
  | .sb _ _ _ => .sb
  | .addi _ _ _ => .addi

/-- The register an instruction writes, if its format has a destination (R27). -/
def Instr.dest : Instr → Option RegIdx
  | .lui rd _ => some rd
  | .jal rd _ => some rd
  | .jalr rd _ _ => some rd
  | .bne _ _ _ => none
  | .lb rd _ _ => some rd
  | .lbu rd _ _ => some rd
  | .sb _ _ _ => none
  | .addi rd _ _ => some rd

/-- The record of the I format (R64). -/
structure IRecord where
  rd  : RegIdx
  rs1 : RegIdx
  imm : Word
  deriving DecidableEq, Repr

/-- The record of the U format (R65): the raw 20-bit value, not shifted. -/
structure URecord where
  rd    : RegIdx
  imm20 : Word
  deriving DecidableEq, Repr

/-- The record of the S format (R66). -/
structure SRecord where
  rs1 : RegIdx
  rs2 : RegIdx
  imm : Word
  deriving DecidableEq, Repr

/-- The record of the B format (R67). -/
structure BRecord where
  rs1 : RegIdx
  rs2 : RegIdx
  imm : Word
  deriving DecidableEq, Repr

/-- The record of the J format (R68). -/
structure JRecord where
  rd  : RegIdx
  imm : Word
  deriving DecidableEq, Repr

/-- One row of the supported table (R73): a word matches when `w & mask = bits`. -/
structure TableRow where
  op   : Op
  bits : Word
  mask : Word
  deriving DecidableEq, Repr

/-- Why bytes are no instruction. -/
inductive DecodeError where
  /-- The word matches no row of the supported table; it carries the raw word (R76, R104). Safe: the spec's own failure. -/
  | unsupportedInstruction (w : Word)
  /-- Fewer than four bytes were given; an instruction is four bytes (R62). No step raises it: a fetch always gives four. -/
  | tooFewBytes (n : Nat)
  deriving DecidableEq, Repr

end Sys2Proof
end

