-- ==== Sys2Proof/WellFormed.lean ====
section
/-! DEFINITION. Which instruction terms an encoding exists for: the immediate lies in its format's range (R70, R82). -/

namespace Sys2Proof

/-- The signed reading of `imm` is a `bits`-bit two's-complement value. -/
def fitsSigned (bits : Nat) (imm : Word) : Bool :=
  decide (-(2 ^ (bits - 1) : Int) ≤ imm.toInt) && decide (imm.toInt < (2 ^ (bits - 1) : Int))

/-- The immediate is a multiple of 2, as B and J offsets are (R67, R68, R82 "i[0] must be 0"). -/
def isEven (imm : Word) : Bool :=
  decide (imm.toNat % 2 = 0)

/-- The ranges of R70, format by format. -/
def Instr.wf : Instr → Bool
  | .lui _ imm20 => decide (imm20.toNat < 2 ^ 20)
  | .jal _ imm => fitsSigned 21 imm && isEven imm
  | .jalr _ _ imm => fitsSigned 12 imm
  | .bne _ _ imm => fitsSigned 13 imm && isEven imm
  | .lb _ _ imm => fitsSigned 12 imm
  | .lbu _ _ imm => fitsSigned 12 imm
  | .sb _ _ imm => fitsSigned 12 imm
  | .addi _ _ imm => fitsSigned 12 imm

end Sys2Proof
end

