-- ==== Sys2Proof/Decode.lean ====
section
/-! DEFINITION. The bit utilities, the five format decoders, the dispatch table, the decoder of words and bytes, and the encoder (spec/30_encoding.md). -/

namespace Sys2Proof

/-! ### Bit utilities (R59 to R61) -/

/-- `mask(n)`: the low `n` bits set, all ones for `n ≥ 32` (R59). -/
def mask (n : Nat) : Word :=
  if 32 ≤ n then BitVec.allOnes 32 else (1#32 <<< n) - 1#32

/-- `bitsSlice(value, s, e)`: bits `[s, e)`, right-justified; the soft 0 for `s > e` or `e > 32` (R60). -/
def bitsSlice (value : Word) (s e : Nat) : Word :=
  if s ≤ e ∧ e ≤ 32 then (value >>> s) &&& mask (e - s) else 0#32

/-- `signExtend(value, bits)` (R61). The case `bits = 0` has no meaning (D16) and cannot be written: `bits` comes with
a proof that it is positive. -/
def signExtend (value : Word) (bits : Nat) (_positive : 0 < bits := by decide) : Word :=
  if 32 ≤ bits then value
  else
    let field := value &&& mask bits
    if field.getLsbD (bits - 1) then field ||| ~~~ (mask bits) else field

/-! ### The format decoders (R63 to R69): total on every word, reading no opcode -/

/-- rd = w[11:7] (R63). -/
def fieldRd (w : Word) : RegIdx := (bitsSlice w 7 12).setWidth 5
/-- rs1 = w[19:15] (R63). -/
def fieldRs1 (w : Word) : RegIdx := (bitsSlice w 15 20).setWidth 5
/-- rs2 = w[24:20] (R63). -/
def fieldRs2 (w : Word) : RegIdx := (bitsSlice w 20 25).setWidth 5

/-- The I decoder (R64). -/
def decodeI (w : Word) : IRecord where
  rd := fieldRd w
  rs1 := fieldRs1 w
  imm := signExtend (bitsSlice w 20 32) 12

/-- The U decoder (R65): the 20-bit field, neither shifted nor extended. -/
def decodeU (w : Word) : URecord where
  rd := fieldRd w
  imm20 := bitsSlice w 12 32

/-- The S decoder (R66). -/
def decodeS (w : Word) : SRecord where
  rs1 := fieldRs1 w
  rs2 := fieldRs2 w
  imm := signExtend ((bitsSlice w 25 32 <<< 5) ||| bitsSlice w 7 12) 12

/-- The B decoder (R67, conflict C7: imm[11] is the single bit w[7]). -/
def decodeB (w : Word) : BRecord where
  rs1 := fieldRs1 w
  rs2 := fieldRs2 w
  imm := signExtend ((bitsSlice w 31 32 <<< 12) ||| (bitsSlice w 7 8 <<< 11) |||
    (bitsSlice w 25 31 <<< 5) ||| (bitsSlice w 8 12 <<< 1)) 13

/-- The J decoder (R68). -/
def decodeJ (w : Word) : JRecord where
  rd := fieldRd w
  imm := signExtend ((bitsSlice w 31 32 <<< 20) ||| (bitsSlice w 12 20 <<< 12) |||
    (bitsSlice w 20 21 <<< 11) ||| (bitsSlice w 21 31 <<< 1)) 21

/-! ### Dispatch (R72 to R76) -/

/-- The supported table (R73), in the order the rule prints it; the rows are disjoint, so the order is immaterial (R75). -/
def supportedTable : List TableRow :=
  [ ⟨.lui,  0x00000037#32, 0x0000007F#32⟩,
    ⟨.jal,  0x0000006F#32, 0x0000007F#32⟩,
    ⟨.jalr, 0x00000067#32, 0x0000707F#32⟩,
    ⟨.bne,  0x00001063#32, 0x0000707F#32⟩,
    ⟨.lb,   0x00000003#32, 0x0000707F#32⟩,
    ⟨.lbu,  0x00004003#32, 0x0000707F#32⟩,
    ⟨.sb,   0x00000023#32, 0x0000707F#32⟩,
    ⟨.addi, 0x00000013#32, 0x0000707F#32⟩ ]

/-- A word matches a row when `w & mask = match` (R73). -/
def TableRow.matchesWord (r : TableRow) (w : Word) : Bool :=
  decide (w &&& r.mask = r.bits)

/-- The dispatch's lookup (R72, R87): the operation whose row the word matches, if any. -/
def dispatch (w : Word) : Option Op :=
  (supportedTable.find? (fun r => r.matchesWord w)).map (fun r => r.op)

/-- The record of the selected operation's decoder, as an instruction (R73's decoder column, R88). -/
def decodeAs (op : Op) (w : Word) : Instr :=
  match op with
  | .lui  => .lui (decodeU w).rd (decodeU w).imm20
  | .jal  => .jal (decodeJ w).rd (decodeJ w).imm
  | .jalr => .jalr (decodeI w).rd (decodeI w).rs1 (decodeI w).imm
  | .bne  => .bne (decodeB w).rs1 (decodeB w).rs2 (decodeB w).imm
  | .lb   => .lb (decodeI w).rd (decodeI w).rs1 (decodeI w).imm
  | .lbu  => .lbu (decodeI w).rd (decodeI w).rs1 (decodeI w).imm
  | .sb   => .sb (decodeS w).rs1 (decodeS w).rs2 (decodeS w).imm
  | .addi => .addi (decodeI w).rd (decodeI w).rs1 (decodeI w).imm

/-- The instruction a word is, or its rejection by name with the raw word (R76, R87). -/
def decode (w : Word) : Except DecodeError Instr :=
  match dispatch w with
  | some op => .ok (decodeAs op w)
  | none => .error (.unsupportedInstruction w)

/-- The word four bytes make, the first least significant (R45). -/
def wordOfBytes (b0 b1 b2 b3 : Byte) : Word :=
  b3 ++ b2 ++ b1 ++ b0

/-- Byte `k` (0 to 3) of a word as memory holds it, little-endian (R45). -/
def byteOfWord (w : Word) (k : Nat) : Byte :=
  (w >>> (8 * k)).setWidth 8

/-- The decoder on bytes: the first four make the word (R45, R62); the rest is returned. -/
def decodeBytes : List Byte → Except DecodeError (Instr × List Byte)
  | b0 :: b1 :: b2 :: b3 :: rest => (decode (wordOfBytes b0 b1 b2 b3)).map (fun i => (i, rest))
  | short => .error (.tooFewBytes short.length)

/-! ### Encoding, the inverse of the decoders (R82) -/

/-- A register index placed at bit `k` of a word. -/
def placeReg (i : RegIdx) (k : Nat) : Word := (i.setWidth 32) <<< k

/-- enc_I (R82). -/
def encI (op f3 : Word) (rd rs1 : RegIdx) (i : Word) : Word :=
  (bitsSlice i 0 12 <<< 20) ||| placeReg rs1 15 ||| (f3 <<< 12) ||| placeReg rd 7 ||| op

/-- enc_U (R82). -/
def encU (op : Word) (rd : RegIdx) (imm20 : Word) : Word :=
  (imm20 <<< 12) ||| placeReg rd 7 ||| op

/-- enc_S (R82). -/
def encS (op f3 : Word) (rs1 rs2 : RegIdx) (i : Word) : Word :=
  (bitsSlice i 5 12 <<< 25) ||| placeReg rs2 20 ||| placeReg rs1 15 ||| (f3 <<< 12) |||
    (bitsSlice i 0 5 <<< 7) ||| op

/-- enc_B (R82). -/
def encB (op f3 : Word) (rs1 rs2 : RegIdx) (i : Word) : Word :=
  (bitsSlice i 12 13 <<< 31) ||| (bitsSlice i 5 11 <<< 25) ||| placeReg rs2 20 ||| placeReg rs1 15 |||
    (f3 <<< 12) ||| (bitsSlice i 1 5 <<< 8) ||| (bitsSlice i 11 12 <<< 7) ||| op

/-- enc_J (R82). -/
def encJ (op : Word) (rd : RegIdx) (i : Word) : Word :=
  (bitsSlice i 20 21 <<< 31) ||| (bitsSlice i 1 11 <<< 21) ||| (bitsSlice i 11 12 <<< 20) |||
    (bitsSlice i 12 20 <<< 12) ||| placeReg rd 7 ||| op

/-- The word of a well-formed instruction, with the opcode and funct3 of R73. -/
def encode : Instr → Word
  | .lui rd imm20 => encU 0x37#32 rd imm20
  | .jal rd imm => encJ 0x6F#32 rd imm
  | .jalr rd rs1 imm => encI 0x67#32 0b000#32 rd rs1 imm
  | .bne rs1 rs2 imm => encB 0x63#32 0b001#32 rs1 rs2 imm
  | .lb rd rs1 imm => encI 0x03#32 0b000#32 rd rs1 imm
  | .lbu rd rs1 imm => encI 0x03#32 0b100#32 rd rs1 imm
  | .sb rs1 rs2 imm => encS 0x23#32 0b000#32 rs1 rs2 imm
  | .addi rd rs1 imm => encI 0x13#32 0b000#32 rd rs1 imm

/-- The host's question on one table word: bit 0 of `w` is bit 0 of the first byte, the bits above `nbits` are 0, and
the word stands in memory little-endian (R45). Every row has 32 bits, so a longer word is no instruction of ours. -/
def decodeTableWord (nbits w : Nat) : Option Instr :=
  if nbits ≤ 32 then
    let word : Word := BitVec.ofNat 32 (w % 2 ^ nbits)
    match decodeBytes [byteOfWord word 0, byteOfWord word 1, byteOfWord word 2, byteOfWord word 3] with
    | .ok (i, _) => some i
    | .error _ => none
  else none

end Sys2Proof
end

