-- ==== Sys2Proof/Config.lean ====
section
/-! DEFINITION. The free values of the machine: what the spec leaves open and the model leaves unconstrained. -/

namespace Sys2Proof

/-- What a console answers to a read: parameter `console_read` of R8, left OPEN by R39 and D10 ("a model must admit
every byte value and the error outcome"). `some b` is a byte, `none` the error. A FREE VALUE (log entry 2): no body,
so nothing can be proved of any of its values. The arguments are the number of the draw (`State.draws`) and the
address read. -/
opaque Config.consoleRead : Nat → Word → Option Byte

/-- What a device of another kind answers to a read inside its range: "the device kind's own" (R34, U14).
A FREE VALUE (log entry 3), in the form of `Config.consoleRead`. -/
opaque Config.otherRead : Nat → Word → Option Byte

/-- Whether a device of another kind accepts a write inside its range (R35, U14): a device may fail it (R117).
A FREE VALUE (log entry 3); the arguments are the draw, the address and the byte written. -/
opaque Config.otherWriteOk : Nat → Word → Byte → Bool

end Sys2Proof
end

