-- ==== Sys2Proof/Machine/State.lean ====
section
/-! DEFINITION. Everything the spec gives the machine as plain data (spec/10_state.md, spec/20_memory.md), the failures, and the reasons a step stops. -/

namespace Sys2Proof.Machine

/-- The storage of a Memory Cell: (offset, byte) pairs, offsets strictly rising, no byte equal to the creation byte
(`Memory.wf` in Machine/Ops.lean); an unlisted offset holds the creation byte. -/
abbrev Memory := List Host.Cell

/-- A Memory Cell: `capacity` bytes at offsets 0 .. capacity-1 (R29). -/
structure MemoryCell where
  capacity : Word
  bytes    : Memory
  deriving DecidableEq, Repr

/-- The kinds of device (R38, R39, U14), each with the state it owns (R24). -/
inductive DeviceKind where
  /-- RAM: it owns one Memory Cell, whose capacity is the device's size (R38). -/
  | ram (cell : MemoryCell)
  /-- Console: the bytes written to it so far, oldest first: `console_out` (R24, R39). -/
  | console (size : Word) (out : List Byte)
  /-- Any other object meeting the device contract (R32 to R35, U14): its answers are free values (log entry 3). -/
  | other (size : Word)
  deriving DecidableEq, Repr

/-- A device: its constant base address (R32) and its kind. -/
structure Device where
  base : Word
  kind : DeviceKind
  deriving DecidableEq, Repr

/-- The kinds of failure, each with the information it carries (R110 to R114, D14). Every one is the spec's own failure
of a step or of a host call, so each is safe: the machine stops where the hardware stops. R115's decode-range failure
is never raised and is no constructor. -/
inductive FailureKind where
  /-- R111: the bus, on an address in no device's range (fetch, load or store). -/
  | noDeviceAtAddress (addr : Word)
  /-- R112: a device, on an address outside its own range; only a host's direct call can raise it. -/
  | deviceAddressOutOfRange (addr : Word)
  /-- R113: a Memory Cell, on an offset not below its capacity; only a host's direct call can raise it. -/
  | memoryCellOutOfBounds (offset : Nat)
  /-- R114: the dispatch, on a word that matches no row of the supported table; it carries the raw word. -/
  | unsupportedInstruction (w : Word)
  /-- R117 "a device's own read failure", "a device's own write failure": a console read answered with the error
  (R39), or another kind of device failing an access inside its range. The information is the address. -/
  | deviceFailure (addr : Word)
  deriving DecidableEq, Repr

/-- The phase of a step a failure arose in (R116). -/
inductive Phase where
  | fetch | dispatch | load | store
  deriving DecidableEq, Repr

/-- What a failed step records (R116): the kind with its information, and the phase. -/
structure Failure where
  kind  : FailureKind
  phase : Phase
  deriving DecidableEq, Repr

/-- The whole state. -/
structure State where
  /-- x[0] .. x[31]; register 0 is an ordinary register (R13, R14). -/
  regs : Vector Word 32
  /-- The program counter (R16). -/
  pc : Word
  /-- The `halted` latch with the failure that set it: `none` is `halted = false`, `some f` is `halted = true` (R22). -/
  failure : Option Failure
  /-- The bus: the devices in the order they were added, which is their priority (R36), each with its own state (R24). -/
  devices : List Device
  /-- THE MODEL'S OWN FIELD, not the spec's (log entry 4): how many free values have been drawn so far. -/
  draws : Nat
  deriving DecidableEq, Repr

/-- The machine at its creation (R25, R26, R128, R129): registers and pc 0, not halted, a bus with no device. -/
def State.reset : State where
  regs := Vector.replicate 32 0#32
  pc := 0#32
  failure := none
  devices := []
  draws := 0

/-- Why the machine stops. -/
inductive Fault where
  /-- A step (or the instruction it runs) failed: R89's second outcome. It carries the failure and the state the failed
  step leaves, in which `halted` is set with that failure and no register, pc or device has changed (R90). Raised by
  every phase of a step (R117). Safe: the spec's own stop. -/
  | stepFailed (f : Failure) (after : State)
  /-- A halted Core takes no step (R22, R85 "require halted = false"); `f` is the failure it halted with. Raised by step
  alone. Safe: the spec makes the halt final (D7). -/
  | halted (f : Failure)
  deriving DecidableEq, Repr

/-- What the model gives no meaning to. -/
inductive Refusal where
  /-- An instruction whose arm in exec has no meaning yet. No arm raises it. Safe. -/
  | notModelled (mnemonic : String)
  /-- A device whose range would run past the top of the address space: R33 and D4, "this spec refuses such a
  configuration". Raised by step, before anything else, on a bus that holds one. Safe. -/
  | deviceRangeWraps (base size : Word)
  deriving DecidableEq, Repr

/-- The result of a bus transaction (R41, R42, R110), with the state it leaves: the value, or the failure. -/
inductive BusResult (α : Type) where
  | ok (value : α) (after : State)
  | fail (kind : FailureKind) (after : State)
  deriving DecidableEq, Repr

end Sys2Proof.Machine
end

