-- ==== Sys2Proof/Machine/Ops.lean ====
section
/-! DEFINITION. The named operations: Memory Cell, device, bus, fetch, registers and pc, and failing a step. -/

namespace Sys2Proof.Machine

/-! ### Memory Cell storage -/

/-- What an offset nothing has written reads as: the creation byte 0x00 (R26, D2; log entry 5). -/
def Memory.unlisted : Byte := 0#8

/-- The byte at an offset. -/
def Memory.read : Memory → Nat → Byte
  | [], _ => Memory.unlisted
  | (k, b) :: rest, a => if k = a then b else Memory.read rest a

/-- Set the byte at an offset, keeping the canonical form: writing the creation byte removes the entry. -/
def Memory.write : Memory → Nat → Byte → Memory
  | [], a, v => if v = Memory.unlisted then [] else [(a, v)]
  | (k, b) :: rest, a, v =>
    if k < a then (k, b) :: Memory.write rest a v
    else if k = a then (if v = Memory.unlisted then rest else (a, v) :: rest)
    else if v = Memory.unlisted then (k, b) :: rest else (a, v) :: (k, b) :: rest

/-- The canonical form: offsets strictly rising, no listed byte equal to the creation byte. -/
def Memory.wf : Memory → Bool
  | [] => true
  | (k, b) :: rest => decide (b ≠ Memory.unlisted) && rest.all (fun c => decide (k < c.1)) && Memory.wf rest

/-- `cell.read(offset)` (R30). -/
def MemoryCell.read (c : MemoryCell) (offset : Nat) : Except FailureKind Byte :=
  if offset < c.capacity.toNat then .ok (c.bytes.read offset) else .error (.memoryCellOutOfBounds offset)

/-- `cell.write(offset, byte)` (R31). -/
def MemoryCell.write (c : MemoryCell) (offset : Nat) (b : Byte) : Except FailureKind MemoryCell :=
  if offset < c.capacity.toNat then .ok { c with bytes := c.bytes.write offset b }
  else .error (.memoryCellOutOfBounds offset)

/-- The cell's storage is canonical and lies within its capacity. -/
def MemoryCell.wf (c : MemoryCell) : Bool :=
  c.bytes.wf && c.bytes.all (fun x => decide (x.1 < c.capacity.toNat))

/-- A Memory Cell just created: every byte the creation byte (R26, R29). -/
def MemoryCell.new (capacity : Word) : MemoryCell := ⟨capacity, []⟩

/-! ### Devices -/

/-- `size()` (R32); a RAM device's is its cell's capacity (R38, D5). -/
def Device.size (d : Device) : Word :=
  match d.kind with
  | .ram cell => cell.capacity
  | .console size _ => size
  | .other size => size

/-- The address lies in the device's valid range `[base, base + size)` (R33). -/
def Device.contains (d : Device) (a : Word) : Bool :=
  decide (d.base.toNat ≤ a.toNat) && decide (a.toNat - d.base.toNat < d.size.toNat)

/-- The range does not run past the top of the address space: `base + size ≤ 2^32` (R33, D4). -/
def Device.rangeOk (d : Device) : Bool :=
  decide (d.base.toNat + d.size.toNat ≤ 2 ^ 32)

/-- The device's storage is in canonical form. -/
def Device.wf (d : Device) : Bool :=
  match d.kind with
  | .ram cell => cell.wf
  | .console _ _ => true
  | .other _ => true

/-- Address to offset: `addr - baseAddress` (R38, D5). -/
def Device.offset (d : Device) (a : Word) : Nat := a.toNat - d.base.toNat

/-- A free answer to a read as the device's result: a byte, or the device's own failure (R39, R117). -/
def freeAnswer (a : Word) : Option Byte → Except FailureKind Byte
  | some b => .ok b
  | none => .error (.deviceFailure a)

/-- `device.read(addr)` (R34, R38, R39), with the number of the next draw. No read changes a device (R52). -/
def Device.read (d : Device) (a : Word) (draw : Nat) : Except FailureKind Byte × Nat :=
  if d.contains a then
    match d.kind with
    | .ram cell => (cell.read (d.offset a), draw)
    | .console _ _ => (freeAnswer a (Config.consoleRead draw a), draw + 1)
    | .other _ => (freeAnswer a (Config.otherRead draw a), draw + 1)
  else (.error (.deviceAddressOutOfRange a), draw)

/-- `device.write(addr, byte)` (R35, R38, R39), with the number of the next draw. -/
def Device.write (d : Device) (a : Word) (b : Byte) (draw : Nat) : Except FailureKind Device × Nat :=
  if d.contains a then
    match d.kind with
    | .ram cell => ((cell.write (d.offset a) b).map (fun c => { d with kind := .ram c }), draw)
    | .console size out => (.ok { d with kind := .console size (out ++ [b]) }, draw)
    | .other _ => (if Config.otherWriteOk draw a b then .ok d else .error (.deviceFailure a), draw + 1)
  else (.error (.deviceAddressOutOfRange a), draw)

/-! ### Bus -/

/-- `findDevice(addr)`: the first added device whose range holds the address (R37, R43). -/
def findDevice (devices : List Device) (a : Word) : Option Device :=
  devices.find? (fun d => d.contains a)

/-- Put `d'` in the place of the device that `findDevice` answers at `a`; every other device stays. -/
def replaceFound : List Device → Word → Device → List Device
  | [], _, _ => []
  | d :: rest, a, d' => if d.contains a then d' :: rest else d :: replaceFound rest a d'

/-- `Bus.read(addr)`, the spec's `MemRead(addr, 1)` (R41). -/
def busRead (s : State) (a : Word) : BusResult Byte :=
  match findDevice s.devices a with
  | none => .fail (.noDeviceAtAddress a) s
  | some d =>
    match d.read a s.draws with
    | (.ok b, n) => .ok b { s with draws := n }
    | (.error k, n) => .fail k { s with draws := n }

/-- `Bus.write(addr, byte)`, the spec's `MemWrite(addr, 1, byte)` (R42). A failing write changes no device (R90). -/
def busWrite (s : State) (a : Word) (b : Byte) : BusResult Unit :=
  match findDevice s.devices a with
  | none => .fail (.noDeviceAtAddress a) s
  | some d =>
    match d.write a b s.draws with
    | (.ok d', n) => .ok () { s with devices := replaceFound s.devices a d', draws := n }
    | (.error k, n) => .fail k { s with draws := n }

/-- Go on with the value of a transaction that succeeded; the first failure ends it (R46, R119). -/
def BusResult.andThen {α β : Type} (r : BusResult α) (f : α → State → BusResult β) : BusResult β :=
  match r with
  | .ok v s => f v s
  | .fail k s => .fail k s

/-- `Fetch(pc)` (R45, R46): four byte reads in ascending order, assembled little-endian. -/
def fetch (s : State) : BusResult Word :=
  (busRead s s.pc).andThen fun b0 s0 =>
  (busRead s0 (s.pc + 1#32)).andThen fun b1 s1 =>
  (busRead s1 (s.pc + 2#32)).andThen fun b2 s2 =>
  (busRead s2 (s.pc + 3#32)).andThen fun b3 s3 =>
  .ok (wordOfBytes b0 b1 b2 b3) s3

/-! ### Registers and pc -/

/-- `x[i]` (R11); register 0 is read like any other (R14). -/
def State.reg (s : State) (i : RegIdx) : Word := s.regs[i.toFin]

/-- `x[i] <- v` (R11); register 0 is written like any other (R14). -/
def State.setReg (s : State) (i : RegIdx) (v : Word) : State :=
  { s with regs := s.regs.set i.toNat v i.isLt }

/-- `pc <- v` (R11): no check on the value (R16). -/
def State.setPc (s : State) (v : Word) : State := { s with pc := v }

/-- `pc <- pc + 4`, modulo 2^32 (R18, D3). -/
def State.advance (s : State) : State := s.setPc (s.pc + 4#32)

/-! ### A failed step (R89, R90, R116, R120): nothing is saved, no handler is entered, there is no return -/

/-- Set the `halted` latch with its failure (R22, R89); registers, pc and devices stay (R90, R120). -/
def State.halt (s : State) (f : Failure) : State := { s with failure := some f }

/-- The step ends with the failure, in the phase it arose (R116). -/
def failStep (s : State) (k : FailureKind) (phase : Phase) : Host.Outcome State Fault Refusal :=
  .fault (.stepFailed ⟨k, phase⟩ (s.halt ⟨k, phase⟩))

end Sys2Proof.Machine
end

