-- ==== Sys2Proof/Machine/Flags.lean ====
section
/-! DEFINITION. The machine has no flags (R19); its one condition is BNE's comparison of two registers. -/

namespace Sys2Proof.Machine

/-- BNE's condition: all 32 bits compared, no signedness (R71, R98). -/
def registersDiffer (s : State) (rs1 rs2 : RegIdx) : Bool := decide (s.reg rs1 ≠ s.reg rs2)

end Sys2Proof.Machine
end

