-- ==== Sys2Proof/Machine/Operands.lean ====
section
/-! DEFINITION. Addresses, targets, link values and data widths of the operands (R71, R95, R99). Every sum is modulo 2^32 (R10, D3). -/

namespace Sys2Proof.Machine

/-- `x[rs1] + imm`: the address of a load or store, and the sum of JALR and ADDI (R71, R99). -/
def basePlusImm (s : State) (rs1 : RegIdx) (imm : Word) : Word := s.reg rs1 + imm

/-- `pc + imm`: the target of JAL and of a taken BNE, from the instruction's own address (R96, R98). -/
def pcPlusImm (s : State) (imm : Word) : Word := s.pc + imm

/-- The link value of JAL and JALR, `pc + 4` (R95). -/
def linkValue (s : State) : Word := s.pc + 4#32

/-- Clear bit 0: the JALR target (R71, R97). -/
def clearBit0 (t : Word) : Word := t &&& 0xFFFFFFFE#32

/-- `imm20 << 12` (R71, R94). -/
def upperImm (imm20 : Word) : Word := imm20 <<< 12

/-- `sext_8`: LB's data (R100). -/
def sextByte (b : Byte) : Word := signExtend (b.setWidth 32) 8

/-- `zext_8`: LBU's data (R101). -/
def zextByte (b : Byte) : Word := b.setWidth 32

/-- `x[rs2][7:0]`: SB's data (R71, R102, D20). -/
def lowByte (s : State) (rs2 : RegIdx) : Byte := (s.reg rs2).setWidth 8

end Sys2Proof.Machine
end

