-- ==== Sys2Proof/Machine/ControlTransfer.lean ====
section
/-! DEFINITION. JAL, JALR and BNE (spec/42_control_transfer.md). No target is checked (R95). -/

namespace Sys2Proof.Machine

/-- JAL (R96). -/
def execJal (rd : RegIdx) (imm : Word) (s : State) : Host.Outcome State Fault Refusal :=
  .next ((s.setReg rd (linkValue s)).setPc (pcPlusImm s imm))

/-- JALR (R97): the target is computed from the register's old value, also when `rd = rs1`. -/
def execJalr (rd rs1 : RegIdx) (imm : Word) (s : State) : Host.Outcome State Fault Refusal :=
  .next ((s.setReg rd (linkValue s)).setPc (clearBit0 (basePlusImm s rs1 imm)))

/-- BNE (R98). -/
def execBne (rs1 rs2 : RegIdx) (imm : Word) (s : State) : Host.Outcome State Fault Refusal :=
  .next (if registersDiffer s rs1 rs2 then s.setPc (pcPlusImm s imm) else s.advance)

end Sys2Proof.Machine
end

