-- ==== Sys2Proof/Machine/IntegerComputational.lean ====
section
/-! DEFINITION. ADDI and LUI (spec/41_integer_computational.md). -/

namespace Sys2Proof.Machine

/-- ADDI (R93). -/
def execAddi (rd rs1 : RegIdx) (imm : Word) (s : State) : Host.Outcome State Fault Refusal :=
  .next (s.setReg rd (basePlusImm s rs1 imm)).advance

/-- LUI (R94). -/
def execLui (rd : RegIdx) (imm20 : Word) (s : State) : Host.Outcome State Fault Refusal :=
  .next (s.setReg rd (upperImm imm20)).advance

end Sys2Proof.Machine
end

