-- ==== Sys2Proof/Machine/LoadStore.lean ====
section
/-! DEFINITION. LB, LBU and SB (spec/43_load_store.md). -/

namespace Sys2Proof.Machine

/-- What both loads do (R99, R103): one bus read, then the register write and the pc, only if it succeeded. -/
def loadByte (extend : Byte → Word) (rd rs1 : RegIdx) (imm : Word) (s : State) : Host.Outcome State Fault Refusal :=
  match busRead s (basePlusImm s rs1 imm) with
  | .ok b s1 => .next (s1.setReg rd (extend b)).advance
  | .fail k s1 => failStep s1 k .load

/-- LB (R100). -/
def execLb (rd rs1 : RegIdx) (imm : Word) (s : State) : Host.Outcome State Fault Refusal :=
  loadByte sextByte rd rs1 imm s

/-- LBU (R101). -/
def execLbu (rd rs1 : RegIdx) (imm : Word) (s : State) : Host.Outcome State Fault Refusal :=
  loadByte zextByte rd rs1 imm s

/-- SB (R102, R103). -/
def execSb (rs1 rs2 : RegIdx) (imm : Word) (s : State) : Host.Outcome State Fault Refusal :=
  match busWrite s (basePlusImm s rs1 imm) (lowByte s rs2) with
  | .ok _ s1 => .next s1.advance
  | .fail k s1 => failStep s1 k .store

end Sys2Proof.Machine
end

