-- ==== Sys2Proof/Machine/Cycle.lean ====
section
/-! DEFINITION. One step (spec/40_step_and_dispatch.md) and the placing of a word where the next step fetches it. -/

namespace Sys2Proof.Machine

/-- Phases 2 and 3 of a step on the fetched word (R87, R88): dispatch, decode, and the handler. -/
def runWord (w : Word) (s : State) : Host.Outcome State Fault Refusal :=
  match decode w with
  | .ok i => exec i s
  | .error _ => failStep s (.unsupportedInstruction w) .dispatch

/-- The first device whose range runs past the top of the address space, if any: a bus the spec refuses (R33, D4). -/
def refusedDevice (devices : List Device) : Option Device :=
  devices.find? (fun d => !d.rangeOk)

/-- `step(core)` (R85): a refused bus and a halted Core take no step; else fetch, dispatch, decode and execute. The
handlers alone write the pc (R92). -/
def cycle (s : State) : Host.Outcome State Fault Refusal :=
  match refusedDevice s.devices with
  | some d => .refused (.deviceRangeWraps d.base d.size)
  | none =>
    match s.failure with
    | some f => .fault (.halted f)
    | none =>
      match fetch s with
      | .ok w s1 => runWord w s1
      | .fail k s1 => failStep s1 k .fetch

/-! ### Placing a word for the next fetch (the host interface's withFetchWord; log entry 9) -/

/-- A RAM device of one byte at `a`, holding `b`. -/
def oneByteRam (a : Word) (b : Byte) : Device := ⟨a, .ram ⟨1#32, Memory.write [] 0 b⟩⟩

/-- Make a read of `a` find the RAM byte `b`: in the RAM that already backs `a`, else in a one-byte RAM added to the
bus (at the end where nothing claims `a`, before everything where a console or another device does). -/
def placeByte (devices : List Device) (a : Word) (b : Byte) : List Device :=
  match findDevice devices a with
  | none => devices ++ [oneByteRam a b]
  | some d =>
    match d.kind with
    | .ram cell =>
      replaceFound devices a { d with kind := .ram { cell with bytes := cell.bytes.write (d.offset a) b } }
    | .console _ _ => oneByteRam a b :: devices
    | .other _ => oneByteRam a b :: devices

/-- The four bytes of the word, little-endian (R45), at pc .. pc+3, and the halted latch clear. -/
def placeWord (s : State) (nbits w : Nat) : State :=
  let word : Word := BitVec.ofNat 32 (w % 2 ^ nbits)
  let d0 := placeByte s.devices s.pc (byteOfWord word 0)
  let d1 := placeByte d0 (s.pc + 1#32) (byteOfWord word 1)
  let d2 := placeByte d1 (s.pc + 2#32) (byteOfWord word 2)
  let d3 := placeByte d2 (s.pc + 3#32) (byteOfWord word 3)
  { s with devices := d3, failure := none }

end Sys2Proof.Machine
end

