-- ==== Sys2Proof/Machine/Step.lean ====
section
/-! DEFINITION. The step and the host's placing of an instruction word, each by its one operation in Machine/Cycle.lean. -/

namespace Sys2Proof.Machine

/-- One step of the machine (R85). -/
def step (s : State) : Host.Outcome State Fault Refusal := cycle s

/-- `s` with the word stored where `step` fetches next: at pc .. pc+3, in RAM (log entry 9). -/
def State.withFetchWord (s : State) (nbits w : Nat) : State := placeWord s nbits w

end Sys2Proof.Machine
end

