-- ==== Sys2Proof/Machine/HostInterface.lean ====
section
/-! DEFINITION. What the host may do to the block outside a step (spec/70_reset_and_hazards.md, R130 to R139). -/

namespace Sys2Proof.Machine

/-- A new Core over an existing bus: registers, pc and latch as created; no device is touched (R128, R129). -/
def State.newCore (s : State) : State :=
  { State.reset with devices := s.devices, draws := s.draws }

/-- `Bus.addDevice(device)` (R131): appended, so of the lowest priority (R36). -/
def State.addDevice (s : State) (d : Device) : State := { s with devices := s.devices ++ [d] }

/-- A new RAM device, zero-filled (R129). -/
def Device.newRam (base size : Word) : Device := ⟨base, .ram (MemoryCell.new size)⟩

/-- A new console, its output empty (R129). -/
def Device.newConsole (base size : Word) : Device := ⟨base, .console size []⟩

/-- `Core.getPc()` (R133). -/
def State.getPc (s : State) : Word := s.pc

/-- The host's register read, by 5-bit index (R134). -/
def State.hostReadReg (s : State) (i : RegIdx) : Word := s.reg i

/-- The host's register write, by 5-bit index (R134). -/
def State.hostWriteReg (s : State) (i : RegIdx) (v : Word) : State := s.setReg i v

/-- `Core.fetch()` as the host calls it (R139). -/
def State.hostFetch (s : State) : BusResult Word := fetch s

/-- The loader's use of the bus (R132): for each byte of the image, find the device and write it; absent fails. -/
def loadImage (s : State) : List (Word × Byte) → BusResult Unit
  | [] => .ok () s
  | (a, b) :: rest => (busWrite s a b).andThen fun _ s1 => loadImage s1 rest

/-- Bring-up in the order of R130: a new bus and Core, the devices in priority order, the image, the entry pc. The
parameters are R8's `devices` and `entry_pc`; `step_budget` is the count given to `Host.Core.run` (R137). -/
def boot (devices : List Device) (image : List (Word × Byte)) (entryPc : Word) : BusResult Unit :=
  (loadImage (devices.foldl State.addDevice State.reset) image).andThen fun _ s => .ok () (s.setPc entryPc)

end Sys2Proof.Machine
end

