-- ==== Sys2Proof/Safety.lean ====
section
/-! DEFINITION. The terms claims use: well-formed states, the memory a bus address shows, the fixed configuration of the bus, safe runs. -/

namespace Sys2Proof.Machine

/-- The bus is a configuration the spec accepts: no range runs past 2^32 (R33, D4). -/
def State.busOk (s : State) : Bool := s.devices.all (fun d => d.rangeOk)

/-- Every device's storage is in canonical form. -/
def State.memoryOk (s : State) : Bool := s.devices.all (fun d => d.wf)

/-- Not halted: the Core can take a step (R22, R85). -/
def State.running (s : State) : Bool := s.failure.isNone

/-- The RAM byte a bus address shows: `none` where no device or no RAM answers. -/
def State.ramByte (s : State) (a : Word) : Option Byte :=
  match findDevice s.devices a with
  | none => none
  | some d =>
    match d.kind with
    | .ram cell => some (cell.bytes.read (d.offset a))
    | .console _ _ => none
    | .other _ => none

/-- The byte a device's own storage holds at an offset, whether or not the bus reaches it; `none` where the device has
no storage there. -/
def Device.stored (d : Device) (offset : Nat) : Option Byte :=
  match d.kind with
  | .ram cell => if offset < cell.capacity.toNat then some (cell.bytes.read offset) else none
  | .console _ _ => none
  | .other _ => none

/-- `console_out` of a device; empty for a device that is no console. -/
def Device.consoleOut (d : Device) : List Byte :=
  match d.kind with
  | .ram _ => []
  | .console _ out => out
  | .other _ => []

/-- What of a device is configuration, constant through a run (R23, R32): its kind, base address and size. -/
inductive KindName where
  | ram | console | other
  deriving DecidableEq, Repr

/-- The kind's name. -/
def Device.kindName (d : Device) : KindName :=
  match d.kind with
  | .ram _ => .ram
  | .console _ _ => .console
  | .other _ => .other

/-- The bus's configuration: kind, base and size of every device, in order. -/
def State.configuration (s : State) : List (KindName × Word × Word) :=
  s.devices.map (fun d => (d.kindName, d.base, d.size))

/-- A run of `k` steps from `s` in which no step fails (R137: a halt by failure is no success). -/
def SafeRun (k : Nat) (s : State) : Prop := ∃ t, Host.Core.run core k s = .next t

end Sys2Proof.Machine
end

