-- ==== Sys2Proof/Certificates/Slice0/Obligations.lean ====
section
/-! DEFINITION. The statements about the machine, for the provers; OBLIGATIONS.json lists them. -/

open Sys2Proof Sys2Proof.Machine

/-! ### Bit utilities -/

/-- R59: `mask(n) = 2^n - 1` for n up to 31, all ones from 32 on. -/
def Obligations.MaskHasLowBitsSet : Prop :=
  (∀ n : Nat, n ≤ 31 → (mask n).toNat = 2 ^ n - 1) ∧
  (∀ n : Nat, 32 ≤ n → mask n = 0xFFFFFFFF#32)

/-- R60: the bits `[s, e)` right-justified, as the shift and mask and as a number; the soft 0 elsewhere. The soft 0 is
the spec's decision D16 (log entry 18). -/
def Obligations.BitsSliceIsRightJustified : Prop :=
  (∀ (v : Word) (s e : Nat), s ≤ e → e ≤ 32 →
    bitsSlice v s e = (v >>> s) &&& mask (e - s) ∧ (bitsSlice v s e).toNat = v.toNat / 2 ^ s % 2 ^ (e - s)) ∧
  (∀ (v : Word) (s e : Nat), e < s ∨ 32 < e → bitsSlice v s e = 0#32)

/-- R61: with `f` the low `bits` bits, the result is `f` or `f + 2^32 - 2^bits` by the field's top bit; from 32 bits on
the value itself. -/
def Obligations.SignExtendFillsFromTopBit : Prop :=
  (∀ (v : Word) (bits : Nat) (h : 0 < bits), bits ≤ 31 →
    (signExtend v bits h).toNat =
      (if v.getLsbD (bits - 1) then v.toNat % 2 ^ bits + 2 ^ 32 - 2 ^ bits else v.toNat % 2 ^ bits)) ∧
  (∀ (v : Word) (bits : Nat) (h : 0 < bits), 32 ≤ bits → signExtend v bits h = v)

/-! ### Encoding -/

/-- R64 to R68: every decoder, on every word, gives the registers and the immediate whose bits the format's table names
(conflict C7: B's imm[11] is the one bit w[7]). -/
def Obligations.FormatDecodersReadTheirFields : Prop :=
  ∀ w : Word,
    ((decodeI w).rd = w.extractLsb' 7 5 ∧ (decodeI w).rs1 = w.extractLsb' 15 5 ∧
      (decodeI w).imm = (w.extractLsb' 20 12).signExtend 32) ∧
    ((decodeU w).rd = w.extractLsb' 7 5 ∧ (decodeU w).imm20 = (w.extractLsb' 12 20).setWidth 32) ∧
    ((decodeS w).rs1 = w.extractLsb' 15 5 ∧ (decodeS w).rs2 = w.extractLsb' 20 5 ∧
      (decodeS w).imm = (w.extractLsb' 25 7 ++ w.extractLsb' 7 5).signExtend 32) ∧
    ((decodeB w).rs1 = w.extractLsb' 15 5 ∧ (decodeB w).rs2 = w.extractLsb' 20 5 ∧
      (decodeB w).imm = (w.extractLsb' 31 1 ++ w.extractLsb' 7 1 ++ w.extractLsb' 25 6 ++ w.extractLsb' 8 4 ++
        0#1).signExtend 32) ∧
    ((decodeJ w).rd = w.extractLsb' 7 5 ∧
      (decodeJ w).imm = (w.extractLsb' 31 1 ++ w.extractLsb' 12 8 ++ w.extractLsb' 20 1 ++ w.extractLsb' 21 10 ++
        0#1).signExtend 32)

/-- R73: a word that matches a row (`w & mask = match`) is that row's instruction, with the record of the row's decoder.
The opcode and funct3 values of all rows but ADDI and JALR are general knowledge (the spec's G1, log entry 15), JALR's
funct3 is the spec's decision D8 (log entry 14). -/
def Obligations.MatchingWordsSelectTheirRow : Prop :=
  ∀ w : Word,
    (w &&& 0x0000007F#32 = 0x00000037#32 → decode w = .ok (.lui (decodeU w).rd (decodeU w).imm20)) ∧
    (w &&& 0x0000007F#32 = 0x0000006F#32 → decode w = .ok (.jal (decodeJ w).rd (decodeJ w).imm)) ∧
    (w &&& 0x0000707F#32 = 0x00000067#32 → decode w = .ok (.jalr (decodeI w).rd (decodeI w).rs1 (decodeI w).imm)) ∧
    (w &&& 0x0000707F#32 = 0x00001063#32 → decode w = .ok (.bne (decodeB w).rs1 (decodeB w).rs2 (decodeB w).imm)) ∧
    (w &&& 0x0000707F#32 = 0x00000003#32 → decode w = .ok (.lb (decodeI w).rd (decodeI w).rs1 (decodeI w).imm)) ∧
    (w &&& 0x0000707F#32 = 0x00004003#32 → decode w = .ok (.lbu (decodeI w).rd (decodeI w).rs1 (decodeI w).imm)) ∧
    (w &&& 0x0000707F#32 = 0x00000023#32 → decode w = .ok (.sb (decodeS w).rs1 (decodeS w).rs2 (decodeS w).imm)) ∧
    (w &&& 0x0000707F#32 = 0x00000013#32 → decode w = .ok (.addi (decodeI w).rd (decodeI w).rs1 (decodeI w).imm))

/-- Section 5 of 30_encoding.md (R76): exactly the words of its list are unsupported, by opcode w[6:0] and funct3
w[14:12]; and a step that fetched one stops with UnsupportedInstruction(w). The opcode and funct3 values of LUI, JAL,
BNE, LB, LBU and SB are presumed (G1, log entry 15); that opcode 0x67 needs funct3 000 is the spec's decision D8 (log
entry 14), the halted latch and the phase its decisions D7 and D14 (log entry 1). That the step looks at the bus first
is log entry 11. -/
def Obligations.UnsupportedWordsAreExactlyTheList : Prop :=
  (∀ w : Word, decode w = .error (.unsupportedInstruction w) ↔
    ((w.extractLsb' 0 7).toNat ∉ [0x03, 0x13, 0x23, 0x37, 0x63, 0x67, 0x6F] ∨
     ((w.extractLsb' 0 7).toNat = 0x03 ∧ (w.extractLsb' 12 3).toNat ∈ [1, 2, 3, 5, 6, 7]) ∨
     ((w.extractLsb' 0 7).toNat = 0x13 ∧ (w.extractLsb' 12 3).toNat ∈ [1, 2, 3, 4, 5, 6, 7]) ∨
     ((w.extractLsb' 0 7).toNat = 0x23 ∧ (w.extractLsb' 12 3).toNat ∈ [1, 2, 3, 4, 5, 6, 7]) ∨
     ((w.extractLsb' 0 7).toNat = 0x63 ∧ (w.extractLsb' 12 3).toNat ∈ [0, 2, 3, 4, 5, 6, 7]) ∨
     ((w.extractLsb' 0 7).toNat = 0x67 ∧ (w.extractLsb' 12 3).toNat ∈ [1, 2, 3, 4, 5, 6, 7]))) ∧
  (∀ (s s1 : State) (w : Word), s.busOk = true → s.failure = none → fetch s = .ok w s1 →
    decode w = .error (.unsupportedInstruction w) →
    step s = .fault (.stepFailed ⟨.unsupportedInstruction w, .dispatch⟩
      { s1 with failure := some ⟨.unsupportedInstruction w, .dispatch⟩ }))

/-- Every well-formed instruction, with every operand its encoding admits, is decoded back from its encoding (R82). The
ranges are R70's; that a term holds the 32-bit immediate is log entry 21. -/
def Obligations.DecodeOfEncodeIsTheInstruction : Prop :=
  ∀ i : Instr, i.wf = true → decode (encode i) = .ok i

/-- The other direction: every word that decodes is the encoding of the well-formed instruction it decodes to, so no
bit of a supported word is dropped (R73 "each row's mask has no other fixed bits"). The ranges are R70's; that a term
holds the 32-bit immediate is log entry 21. -/
def Obligations.EncodeOfDecodeIsTheWord : Prop :=
  ∀ (w : Word) (i : Instr), decode w = .ok i → i.wf = true ∧ encode i = w

/-- Words written out from the spec's encodings and vectors, one or more per operation, are the instructions they stand
for. The opcode and funct3 values of LUI, JAL, BNE, LB, LBU and SB are presumed (G1, log entry 15). -/
def Obligations.WrittenOutWordsDecode : Prop :=
  decode 0x00000513#32 = .ok (.addi 10 0 0) ∧
  decode 0x80010093#32 = .ok (.addi 1 2 0xFFFFF800#32) ∧
  decode 0x123452B7#32 = .ok (.lui 5 0x12345#32) ∧
  decode 0x008000EF#32 = .ok (.jal 1 8) ∧
  decode 0xFFDFF06F#32 = .ok (.jal 0 0xFFFFFFFC#32) ∧
  decode 0x00008067#32 = .ok (.jalr 0 1 0) ∧
  decode 0x7E209FE3#32 = .ok (.bne 1 2 4094) ∧
  decode 0xFFF28283#32 = .ok (.lb 5 5 0xFFFFFFFF#32) ∧
  decode 0x7FF34583#32 = .ok (.lbu 11 6 2047) ∧
  decode 0xFE628FA3#32 = .ok (.sb 5 6 0xFFFFFFFF#32) ∧
  decode 0x00010001#32 = .error (.unsupportedInstruction 0x00010001#32)

/-! ### Registers and reset -/

/-- R14: every register, register 0 among them, keeps what is written to it and leaves the others; a JALR with rd = 0
leaves its link in register 0. That the link pc + 4 wraps at the top of the address space is the spec's decision D3 (log
entry 7). -/
def Obligations.RegisterZeroIsOrdinary : Prop :=
  (∀ (s : State) (i j : RegIdx) (v : Word), (s.setReg i v).reg j = if j = i then v else s.reg j) ∧
  (∀ (s : State) (rs1 : RegIdx) (imm : Word),
    ∃ t, exec (.jalr 0 rs1 imm) s = .next t ∧ t.reg 0 = s.pc + 4#32)

/-- The state after reset. Only x[0] = x[10] = 0 follow from the source; the other registers and the pc are the spec's
decision D1 (log entry 6), the latch its decision D7 (log entry 1); the bus is empty (log entry 10). -/
def Obligations.ResetLeavesZeroRegistersAndAnEmptyBus : Prop :=
  (∀ i : RegIdx, State.reset.reg i = 0#32) ∧ State.reset.pc = 0#32 ∧ State.reset.failure = none ∧
  State.reset.devices = []

/-! ### Instructions -/

/-- R93: the words that are ADDI and their operands; x[rd] becomes x[rs1] + imm, the pc pc + 4, nothing else changes.
That pc + 4 wraps at the top of the address space is the spec's decision D3 (log entry 7). The count of draws is the
model's own field (log entry 4). -/
def Obligations.AddiAddsTheImmediate : Prop :=
  (∀ w : Word, w &&& 0x0000707F#32 = 0x00000013#32 →
    decode w = .ok (.addi (w.extractLsb' 7 5) (w.extractLsb' 15 5) ((w.extractLsb' 20 12).signExtend 32))) ∧
  (∀ (rd rs1 : RegIdx) (imm : Word) (s : State), ∃ t, exec (.addi rd rs1 imm) s = .next t ∧
    t.reg rd = s.reg rs1 + imm ∧ t.pc = s.pc + 4#32 ∧ (∀ r, r ≠ rd → t.reg r = s.reg r) ∧
    t.failure = s.failure ∧ t.devices = s.devices ∧ t.draws = s.draws)

/-- R94: the words that are LUI and their operands; x[rd] becomes imm20 << 12 (w & 0xFFFFF000), the pc pc + 4. The
opcode value is general knowledge (G1, log entry 15), the wrap of pc + 4 decision D3 (log entry 7). The count of draws
is the model's own field (log entry 4). -/
def Obligations.LuiLoadsTheUpperBits : Prop :=
  (∀ w : Word, w &&& 0x0000007F#32 = 0x00000037#32 →
    decode w = .ok (.lui (w.extractLsb' 7 5) ((w.extractLsb' 12 20).setWidth 32)) ∧
    ((w.extractLsb' 12 20).setWidth 32 : Word) <<< 12 = w &&& 0xFFFFF000#32) ∧
  (∀ (rd : RegIdx) (imm20 : Word) (s : State), ∃ t, exec (.lui rd imm20) s = .next t ∧
    t.reg rd = imm20 <<< 12 ∧ t.pc = s.pc + 4#32 ∧ (∀ r, r ≠ rd → t.reg r = s.reg r) ∧
    t.failure = s.failure ∧ t.devices = s.devices ∧ t.draws = s.draws)

/-- R96: the words that are JAL and their operands; x[rd] becomes pc + 4, the pc pc + imm, from the JAL's own address.
The opcode value is general knowledge (G1, log entry 15), the wrap of the sums decision D3 (log entry 7). The count of
draws is the model's own field (log entry 4). -/
def Obligations.JalLinksAndJumps : Prop :=
  (∀ w : Word, w &&& 0x0000007F#32 = 0x0000006F#32 →
    decode w = .ok (.jal (w.extractLsb' 7 5) ((w.extractLsb' 31 1 ++ w.extractLsb' 12 8 ++ w.extractLsb' 20 1 ++
      w.extractLsb' 21 10 ++ 0#1).signExtend 32))) ∧
  (∀ (rd : RegIdx) (imm : Word) (s : State), ∃ t, exec (.jal rd imm) s = .next t ∧
    t.reg rd = s.pc + 4#32 ∧ t.pc = s.pc + imm ∧ (∀ r, r ≠ rd → t.reg r = s.reg r) ∧
    t.failure = s.failure ∧ t.devices = s.devices ∧ t.draws = s.draws)

/-- R97: the words that are JALR and their operands; the target is the old x[rs1] + imm with bit 0 cleared, also when
rd = rs1; x[rd] becomes pc + 4. That funct3 must be 000 is the spec's decision D8 (log entry 14), the wrap of the sums
its decision D3 (log entry 7). The count of draws is the model's own field (log entry 4). -/
def Obligations.JalrLinksAndJumpsToRegister : Prop :=
  (∀ w : Word, w &&& 0x0000707F#32 = 0x00000067#32 →
    decode w = .ok (.jalr (w.extractLsb' 7 5) (w.extractLsb' 15 5) ((w.extractLsb' 20 12).signExtend 32))) ∧
  (∀ (rd rs1 : RegIdx) (imm : Word) (s : State), ∃ t, exec (.jalr rd rs1 imm) s = .next t ∧
    t.reg rd = s.pc + 4#32 ∧ t.pc.getLsbD 0 = false ∧
    (∀ k, 0 < k → t.pc.getLsbD k = (s.reg rs1 + imm).getLsbD k) ∧ (∀ r, r ≠ rd → t.reg r = s.reg r) ∧
    t.failure = s.failure ∧ t.devices = s.devices ∧ t.draws = s.draws)

/-- R98: the words that are BNE and their operands; pc + imm if the registers differ, pc + 4 if not; no register
changes. The opcode and funct3 values are general knowledge (G1, log entry 15), the wrap of the sums decision D3 (log
entry 7). The count of draws is the model's own field (log entry 4). -/
def Obligations.BneBranchesWhenRegistersDiffer : Prop :=
  (∀ w : Word, w &&& 0x0000707F#32 = 0x00001063#32 →
    decode w = .ok (.bne (w.extractLsb' 15 5) (w.extractLsb' 20 5) ((w.extractLsb' 31 1 ++ w.extractLsb' 7 1 ++
      w.extractLsb' 25 6 ++ w.extractLsb' 8 4 ++ 0#1).signExtend 32))) ∧
  (∀ (rs1 rs2 : RegIdx) (imm : Word) (s : State), ∃ t, exec (.bne rs1 rs2 imm) s = .next t ∧
    (s.reg rs1 ≠ s.reg rs2 → t.pc = s.pc + imm) ∧ (s.reg rs1 = s.reg rs2 → t.pc = s.pc + 4#32) ∧
    t.regs = s.regs ∧ t.failure = s.failure ∧ t.devices = s.devices ∧ t.draws = s.draws)

/-- R100: the words that are LB and their operands; when the one bus read at x[rs1] + imm answers b, x[rd] becomes b
sign-extended and the pc pc + 4; when it fails, the instruction fails so and writes nothing. The address's wrap is the
spec's decision D3 (log entry 7), that a device's own failure ends the load like a missing device its decision D9 (log
entry 16), the opcode and funct3 values general knowledge (G1, log entry 15). The count of draws is the model's own
field (log entry 4). That a read changes no device is log entry 2 for a console (D10) and log entry 3 for another
kind. -/
def Obligations.LbLoadsTheSignExtendedByte : Prop :=
  (∀ w : Word, w &&& 0x0000707F#32 = 0x00000003#32 →
    decode w = .ok (.lb (w.extractLsb' 7 5) (w.extractLsb' 15 5) ((w.extractLsb' 20 12).signExtend 32))) ∧
  (∀ (rd rs1 : RegIdx) (imm : Word) (s s1 : State) (b : Byte), busRead s (s.reg rs1 + imm) = .ok b s1 →
    ∃ t, exec (.lb rd rs1 imm) s = .next t ∧ t.reg rd = b.signExtend 32 ∧ t.pc = s.pc + 4#32 ∧
      (∀ r, r ≠ rd → t.reg r = s.reg r) ∧ t.failure = s.failure ∧ t.devices = s.devices ∧ t.draws = s1.draws) ∧
  (∀ (rd rs1 : RegIdx) (imm : Word) (s s1 : State) (k : FailureKind),
    busRead s (s.reg rs1 + imm) = .fail k s1 →
    ∃ f t, exec (.lb rd rs1 imm) s = .fault (.stepFailed f t) ∧ f.kind = k ∧
      t.regs = s.regs ∧ t.pc = s.pc ∧ t.devices = s.devices)

/-- R101: as LB, with the byte zero-extended; it rests on D3, D9 and G1 as LB does (log entries 7, 16, 15). The count
of draws is the model's own field (log entry 4). That a read changes no device is log entry 2 for a console (D10) and
log entry 3 for another kind. -/
def Obligations.LbuLoadsTheZeroExtendedByte : Prop :=
  (∀ w : Word, w &&& 0x0000707F#32 = 0x00004003#32 →
    decode w = .ok (.lbu (w.extractLsb' 7 5) (w.extractLsb' 15 5) ((w.extractLsb' 20 12).signExtend 32))) ∧
  (∀ (rd rs1 : RegIdx) (imm : Word) (s s1 : State) (b : Byte), busRead s (s.reg rs1 + imm) = .ok b s1 →
    ∃ t, exec (.lbu rd rs1 imm) s = .next t ∧ t.reg rd = b.setWidth 32 ∧ t.pc = s.pc + 4#32 ∧
      (∀ r, r ≠ rd → t.reg r = s.reg r) ∧ t.failure = s.failure ∧ t.devices = s.devices ∧ t.draws = s1.draws) ∧
  (∀ (rd rs1 : RegIdx) (imm : Word) (s s1 : State) (k : FailureKind),
    busRead s (s.reg rs1 + imm) = .fail k s1 →
    ∃ f t, exec (.lbu rd rs1 imm) s = .fault (.stepFailed f t) ∧ f.kind = k ∧
      t.regs = s.regs ∧ t.pc = s.pc ∧ t.devices = s.devices)

/-- R102: the words that are SB and their operands; the low byte of x[rs2] goes to the bus at x[rs1] + imm; when the
write succeeds the pc becomes pc + 4 and no register changes; when it fails, the instruction fails so and writes
nothing. It rests on D3, D9 and G1 as LB does (log entries 7, 16, 15), and on D20 for the byte (log entry 23). The
count of draws is the model's own field (log entry 4). That a failing write of another kind of device changes nothing
is log entry 3. -/
def Obligations.SbStoresTheLowByte : Prop :=
  (∀ w : Word, w &&& 0x0000707F#32 = 0x00000023#32 →
    decode w = .ok (.sb (w.extractLsb' 15 5) (w.extractLsb' 20 5)
      ((w.extractLsb' 25 7 ++ w.extractLsb' 7 5).signExtend 32))) ∧
  (∀ (rs1 rs2 : RegIdx) (imm : Word) (s s1 : State),
    busWrite s (s.reg rs1 + imm) ((s.reg rs2).extractLsb' 0 8) = .ok () s1 →
    ∃ t, exec (.sb rs1 rs2 imm) s = .next t ∧ t.regs = s.regs ∧ t.pc = s.pc + 4#32 ∧ t.failure = s.failure ∧
      t.devices = s1.devices ∧ t.draws = s1.draws) ∧
  (∀ (rs1 rs2 : RegIdx) (imm : Word) (s s1 : State) (k : FailureKind),
    busWrite s (s.reg rs1 + imm) ((s.reg rs2).extractLsb' 0 8) = .fail k s1 →
    ∃ f t, exec (.sb rs1 rs2 imm) s = .fault (.stepFailed f t) ∧ f.kind = k ∧
      t.regs = s.regs ∧ t.pc = s.pc ∧ t.devices = s.devices)

/-- Loads from RAM complete: where the bus finds a RAM device at x[rs1] + imm, LB and LBU give a next state with the
byte at the address's offset in that device, extended (R38, R41, R100, R101), and draw no free value. The offset is the
spec's decision D5 (log entry 12), the wrap of the sums its decision D3 (log entry 7). The count of draws is the
model's own field (log entry 4). -/
def Obligations.LoadsFromRamComplete : Prop :=
  ∀ (rd rs1 : RegIdx) (imm : Word) (s : State) (base : Word) (cell : MemoryCell),
    findDevice s.devices (s.reg rs1 + imm) = some ⟨base, .ram cell⟩ →
    (∃ t, exec (.lb rd rs1 imm) s = .next t ∧
      t.reg rd = (cell.bytes.read ((s.reg rs1 + imm).toNat - base.toNat)).signExtend 32 ∧ t.pc = s.pc + 4#32 ∧
      (∀ r, r ≠ rd → t.reg r = s.reg r) ∧ t.failure = s.failure ∧ t.devices = s.devices ∧ t.draws = s.draws) ∧
    (∃ t, exec (.lbu rd rs1 imm) s = .next t ∧
      t.reg rd = (cell.bytes.read ((s.reg rs1 + imm).toNat - base.toNat)).setWidth 32 ∧ t.pc = s.pc + 4#32 ∧
      (∀ r, r ≠ rd → t.reg r = s.reg r) ∧ t.failure = s.failure ∧ t.devices = s.devices ∧ t.draws = s.draws)

/-- Loads from a console or another device: the answer is a free value (log entries 2 and 3); for EVERY value of it, a
byte completes the load and the error fails it (R34, R39; the spec's decisions D9 and D10, log entries 16 and 2; the
phase D14, the latch D7, log entry 1; the wrap of the sums D3, log entry 7). The count of draws is the model's own
field (log entry 4). That a read changes no device is log entries 2 and 3. -/
def Obligations.LoadsFromOpenDevicesFollowTheFreeAnswer : Prop :=
  ∀ (rd rs1 : RegIdx) (imm : Word) (s : State) (d : Device) (answer : Option Byte),
    findDevice s.devices (s.reg rs1 + imm) = some d →
    ((∃ size out, d.kind = .console size out) ∧ answer = Config.consoleRead s.draws (s.reg rs1 + imm)) ∨
      ((∃ size, d.kind = .other size) ∧ answer = Config.otherRead s.draws (s.reg rs1 + imm)) →
    (match answer with
      | some b =>
        exec (.lb rd rs1 imm) s =
          .next { s.setReg rd (b.signExtend 32) with pc := s.pc + 4#32, draws := s.draws + 1 } ∧
        exec (.lbu rd rs1 imm) s =
          .next { s.setReg rd (b.setWidth 32) with pc := s.pc + 4#32, draws := s.draws + 1 }
      | none =>
        exec (.lb rd rs1 imm) s = .fault (.stepFailed ⟨.deviceFailure (s.reg rs1 + imm), .load⟩
          { s with failure := some ⟨.deviceFailure (s.reg rs1 + imm), .load⟩, draws := s.draws + 1 }) ∧
        exec (.lbu rd rs1 imm) s = .fault (.stepFailed ⟨.deviceFailure (s.reg rs1 + imm), .load⟩
          { s with failure := some ⟨.deviceFailure (s.reg rs1 + imm), .load⟩, draws := s.draws + 1 }))

/-- Stores to RAM and to a console complete: the one device the bus finds takes the byte (RAM at the address's offset,
the spec's decision D5, log entry 12; the console at the end of its output, its decision D10, log entry 17), every
other device stays (R38, R39, R42, R43, R102). The wrap of the sums is D3 (log entry 7), the byte D20 (log entry 23).
Storage in canonical form is log entries 5 and 20. -/
def Obligations.StoresToRamAndConsoleComplete : Prop :=
  ∀ (rs1 rs2 : RegIdx) (imm : Word) (s : State) (earlier later : List Device) (d : Device),
    s.devices = earlier ++ d :: later → d.contains (s.reg rs1 + imm) = true →
    (∀ e ∈ earlier, e.contains (s.reg rs1 + imm) = false) →
    (∀ cell, d.kind = .ram cell →
      exec (.sb rs1 rs2 imm) s = .next { s with
        pc := s.pc + 4#32
        devices := earlier ++ { d with kind := .ram { cell with
          bytes := cell.bytes.write ((s.reg rs1 + imm).toNat - d.base.toNat) ((s.reg rs2).extractLsb' 0 8) } } ::
          later }) ∧
    (∀ size out, d.kind = .console size out →
      exec (.sb rs1 rs2 imm) s = .next { s with
        pc := s.pc + 4#32
        devices := earlier ++ { d with kind := .console size (out ++ [(s.reg rs2).extractLsb' 0 8]) } :: later })

/-- Stores to another kind of device: whether it accepts the byte is a free value (log entry 3); for EVERY value of it,
accepting completes the store and refusing fails it, and no byte of the model's state is stored (R35, R102, R103; the
spec's decisions D3 for the sums, D9 for the failure, D7 and D14 for the latch and phase, D20 for the byte: log entries
7, 16, 1, 23). The count of draws is the model's own field (log entry 4). -/
def Obligations.StoresToOtherDevicesFollowTheFreeAnswer : Prop :=
  ∀ (rs1 rs2 : RegIdx) (imm : Word) (s : State) (base size : Word) (accepted : Bool),
    findDevice s.devices (s.reg rs1 + imm) = some ⟨base, .other size⟩ →
    accepted = Config.otherWriteOk s.draws (s.reg rs1 + imm) ((s.reg rs2).extractLsb' 0 8) →
    exec (.sb rs1 rs2 imm) s =
      if accepted then .next { s with pc := s.pc + 4#32, draws := s.draws + 1 }
      else .fault (.stepFailed ⟨.deviceFailure (s.reg rs1 + imm), .store⟩
        { s with failure := some ⟨.deviceFailure (s.reg rs1 + imm), .store⟩, draws := s.draws + 1 })

/-- Where no device holds x[rs1] + imm, LB, LBU and SB stop with NoDeviceAtAddress of that address, phase load or store,
the Core halted with it (R103, R111; the phase is the spec's decision D14, the latch its decision D7: log entry 1; the
address's wrap its decision D3, log entry 7). -/
def Obligations.UnmappedLoadsAndStoresFail : Prop :=
  ∀ (r rs1 : RegIdx) (imm : Word) (s : State),
    (∀ d ∈ s.devices, ¬ (d.base.toNat ≤ (s.reg rs1 + imm).toNat ∧
      (s.reg rs1 + imm).toNat - d.base.toNat < d.size.toNat)) →
    exec (.lb r rs1 imm) s = .fault (.stepFailed ⟨.noDeviceAtAddress (s.reg rs1 + imm), .load⟩
      { s with failure := some ⟨.noDeviceAtAddress (s.reg rs1 + imm), .load⟩ }) ∧
    exec (.lbu r rs1 imm) s = .fault (.stepFailed ⟨.noDeviceAtAddress (s.reg rs1 + imm), .load⟩
      { s with failure := some ⟨.noDeviceAtAddress (s.reg rs1 + imm), .load⟩ }) ∧
    exec (.sb rs1 r imm) s = .fault (.stepFailed ⟨.noDeviceAtAddress (s.reg rs1 + imm), .store⟩
      { s with failure := some ⟨.noDeviceAtAddress (s.reg rs1 + imm), .store⟩ })

/-! ### Frames -/

/-- ADDI, LUI, JAL, JALR and BNE: every register but the destination (BNE has none), the latch, every device and every
byte of memory stay. The count of draws is the model's own field (log entry 4). The RAM byte at an address is read as
log entries 12 (D5) and 20 say. -/
def Obligations.RegisterAndBranchInstructionsFrame : Prop :=
  ∀ (i : Instr) (s t : State), i.op ∈ [Op.addi, Op.lui, Op.jal, Op.jalr, Op.bne] → exec i s = .next t →
    (∀ r, i.dest ≠ some r → t.reg r = s.reg r) ∧ t.failure = s.failure ∧ t.devices = s.devices ∧
    t.draws = s.draws ∧ ∀ a, t.ramByte a = s.ramByte a

/-- LB and LBU: every register but rd, the latch, every device (a console's output among them) and every byte of memory
stay. That a read changes no device is log entry 2 for a console (D10) and log entry 3 for another kind; the RAM byte
at an address is read as log entries 12 (D5) and 20 say. -/
def Obligations.LoadsFrame : Prop :=
  ∀ (i : Instr) (s t : State), i.op ∈ [Op.lb, Op.lbu] → exec i s = .next t →
    (∀ r, i.dest ≠ some r → t.reg r = s.reg r) ∧ t.failure = s.failure ∧ t.devices = s.devices ∧
    ∀ a, t.ramByte a = s.ramByte a

/-- SB: every register and the latch stay; the one byte stored is at x[rs1] + imm; every other bus address reads its
RAM byte as before; and in the storage itself, of the k-th device, every offset but the stored one of the first device
that holds the address. Where RAM answers at the address (its storage canonical), the byte there is the low byte of
x[rs2]. It rests on the spec's decisions D3, D5 and D20 (log entries 7, 12, 23). The canonical storage is log entries 5
and 20; the console's and the other kinds' writes are log entries 17 (D10) and 3. -/
def Obligations.StoreFrame : Prop :=
  ∀ (rs1 rs2 : RegIdx) (imm : Word) (s t : State), exec (.sb rs1 rs2 imm) s = .next t →
    t.regs = s.regs ∧ t.failure = s.failure ∧
    (∀ a, a ≠ s.reg rs1 + imm → t.ramByte a = s.ramByte a) ∧
    (s.memoryOk = true → s.ramByte (s.reg rs1 + imm) ≠ none →
      t.ramByte (s.reg rs1 + imm) = some ((s.reg rs2).extractLsb' 0 8)) ∧
    (∀ (k : Nat) (d : Device), s.devices[k]? = some d → ∃ d', t.devices[k]? = some d' ∧
      (s.devices.findIdx? (fun e => e.contains (s.reg rs1 + imm)) ≠ some k → d' = d) ∧
      (∀ o, o ≠ d.offset (s.reg rs1 + imm) → d'.stored o = d.stored o))

/-! ### Memory, devices and bus -/

/-- R30, R31: below the capacity a write is read back and changes no other offset; at or above it both fail with
MemoryCellOutOfBounds(offset) (a failing write answers no cell, so it changes nothing). The premise and the clause that
a cell is canonical are the model's form of storage (log entries 5 and 20; the creation byte is D2). -/
def Obligations.MemoryCellReadsBackWrites : Prop :=
  ∀ (c : MemoryCell) (o : Nat) (b : Byte), c.wf = true →
    (o < c.capacity.toNat → c.read o = .ok (c.bytes.read o) ∧
      ∃ c', c.write o b = .ok c' ∧ c'.capacity = c.capacity ∧ c'.wf = true ∧ c'.read o = .ok b ∧
        ∀ o', o' ≠ o → c'.read o' = c.read o') ∧
    (c.capacity.toNat ≤ o →
      c.read o = .error (.memoryCellOutOfBounds o) ∧ c.write o b = .error (.memoryCellOutOfBounds o))

/-- A device's own bounds check (R34, R35): outside `[base, base + size)` both fail with DeviceAddressOutOfRange(addr).
RAM's size is its cell's capacity by the spec's decision D5 (log entry 12). The count of draws is the model's own field
(log entry 4). -/
def Obligations.DevicesCheckTheirOwnRange : Prop :=
  ∀ (d : Device) (a : Word) (b : Byte) (n : Nat),
    ¬ (d.base.toNat ≤ a.toNat ∧ a.toNat - d.base.toNat < d.size.toNat) →
    d.read a n = (.error (.deviceAddressOutOfRange a), n) ∧ d.write a b n = (.error (.deviceAddressOutOfRange a), n)

/-- R37: the device found is the first in the list whose range holds the address, whatever later ranges overlap
it; absent exactly when no range does. -/
def Obligations.FindDeviceIsFirstMatch : Prop :=
  ∀ (devices : List Device) (a : Word),
    (∀ d, findDevice devices a = some d ↔ ∃ earlier later, devices = earlier ++ d :: later ∧
      (d.base.toNat ≤ a.toNat ∧ a.toNat - d.base.toNat < d.size.toNat) ∧
      ∀ e ∈ earlier, ¬ (e.base.toNat ≤ a.toNat ∧ a.toNat - e.base.toNat < e.size.toNat)) ∧
    (findDevice devices a = none ↔
      ∀ d ∈ devices, ¬ (d.base.toNat ≤ a.toNat ∧ a.toNat - d.base.toNat < d.size.toNat))

/-- R44: an access to an address no device claims is a failure, never a default and never dropped; with no device,
every access. The failure and the unchanged state are R41's and R42's; that every access fails with no device is
derived in R44 (the spec's decision D19, log entry 22); the failure's name is D14 (log entry 1). -/
def Obligations.UnmappedAccessIsNeverDefaulted : Prop :=
  ∀ (s : State) (a : Word) (b : Byte),
    (∀ d ∈ s.devices, ¬ (d.base.toNat ≤ a.toNat ∧ a.toNat - d.base.toNat < d.size.toNat)) →
    busRead s a = .fail (.noDeviceAtAddress a) s ∧ busWrite s a b = .fail (.noDeviceAtAddress a) s

/-- A RAM read returns the last byte written to that address, and a write changes no other RAM byte the bus shows (R38,
R55; the offset is the spec's decision D5, log entry 12). The canonical storage is log entries 5 and 20. -/
def Obligations.RamReadReturnsLastWrite : Prop :=
  ∀ (s : State) (a : Word) (b : Byte), s.memoryOk = true → s.ramByte a ≠ none →
    ∃ s1, busWrite s a b = .ok () s1 ∧ busRead s1 a = .ok b s1 ∧ ∀ a', a' ≠ a → s1.ramByte a' = s.ramByte a'

/-! ### Fetch and step -/

/-- Four RAM bytes at pc, pc + 1, pc + 2, pc + 3 (modulo 2^32) are fetched as the word with the first least
significant, and the fetch changes nothing (R45, R47; the wrap is the spec's decision D3, log entry 7). RAM's offset is
the spec's decision D5 (log entry 12). -/
def Obligations.FetchIsLittleEndian : Prop :=
  ∀ (s : State) (b0 b1 b2 b3 : Byte), s.ramByte s.pc = some b0 → s.ramByte (s.pc + 1#32) = some b1 →
    s.ramByte (s.pc + 2#32) = some b2 → s.ramByte (s.pc + 3#32) = some b3 →
    fetch s = .ok (b3 ++ b2 ++ b1 ++ b0) s

/-- A fetch that meets an address no device holds, after RAM bytes, stops the step there: NoDeviceAtAddress of the
first unmapped address, phase fetch, nothing changed but the latch (R46, R111; the order is the spec's decision D6, log
entry 13, the wrap D3, log entry 7, the latch and phase D7 and D14, log entry 1). That the step looks at the bus first
is log entry 11 (D4), RAM's offset D5 (log entry 12). -/
def Obligations.FetchFailsAtTheFirstUnmappedByte : Prop :=
  ∀ (s : State) (k : Nat), s.busOk = true → s.failure = none → k < 4 →
    (∀ j, j < k → s.ramByte (s.pc + BitVec.ofNat 32 j) ≠ none) →
    findDevice s.devices (s.pc + BitVec.ofNat 32 k) = none →
    step s = .fault (.stepFailed ⟨.noDeviceAtAddress (s.pc + BitVec.ofNat 32 k), .fetch⟩
      { s with failure := some ⟨.noDeviceAtAddress (s.pc + BitVec.ofNat 32 k), .fetch⟩ })

/-- A step is the handler of the decoded word, at the state the fetch leaves, which differs only in the count of draws;
with the four bytes in RAM it is `exec i s` itself (R85 to R88, R92; the wrap of pc + k is D3, log entry 7). That the
step looks at the bus first is log entry 11 (D4), the latch D7 (log entry 1), RAM's offset D5 (log entry 12). The count
of draws is the model's own field (log entry 4). -/
def Obligations.StepRunsTheDecodedInstruction : Prop :=
  (∀ (s s1 : State) (w : Word) (i : Instr), s.busOk = true → s.failure = none → fetch s = .ok w s1 →
    decode w = .ok i → step s = exec i s1 ∧ ∃ n, s1 = { s with draws := n }) ∧
  (∀ (s : State) (w : Word) (i : Instr), s.busOk = true → s.failure = none →
    (∀ k, k < 4 → s.ramByte (s.pc + BitVec.ofNat 32 k) = some (w.extractLsb' (8 * k) 8)) →
    decode w = .ok i → step s = exec i s)

/-- A byte stored by SB into RAM is seen by the very next fetch that reads its address (R57, R143; the wrap of the sums
is the spec's decision D3, log entry 7, RAM's offset D5, log entry 12). The byte is D20 (log entry 23), the canonical
storage log entries 5 and 20. -/
def Obligations.StoreIsSeenByTheNextFetch : Prop :=
  ∀ (rs1 rs2 : RegIdx) (imm : Word) (s t t1 : State) (w : Word) (k : Nat), s.memoryOk = true → k < 4 →
    s.ramByte (s.reg rs1 + imm) ≠ none → exec (.sb rs1 rs2 imm) s = .next t →
    s.reg rs1 + imm = t.pc + BitVec.ofNat 32 k → fetch t = .ok w t1 →
    w.extractLsb' (8 * k) 8 = (s.reg rs2).extractLsb' 0 8

/-- R18: the new pc, instruction by instruction, of a step that goes on, and the unchanged pc of a failed one. The sums
wrap by the spec's decision D3 (log entry 7). That a failure leaves the pc, whatever fails, is D9 too (log entry
16). -/
def Obligations.NextPcByInstruction : Prop :=
  (∀ s t : State, step s = .next t → ∃ w s1 i, fetch s = .ok w s1 ∧ decode w = .ok i ∧
    t.pc = match i with
      | .addi _ _ _ => s.pc + 4#32
      | .lui _ _ => s.pc + 4#32
      | .lb _ _ _ => s.pc + 4#32
      | .lbu _ _ _ => s.pc + 4#32
      | .sb _ _ _ => s.pc + 4#32
      | .jal _ imm => s.pc + imm
      | .jalr _ rs1 imm => (s.reg rs1 + imm) &&& 0xFFFFFFFE#32
      | .bne rs1 rs2 imm => if s.reg rs1 ≠ s.reg rs2 then s.pc + imm else s.pc + 4#32) ∧
  (∀ (s t : State) (f : Failure), step s = .fault (.stepFailed f t) → t.pc = s.pc)

/-! ### Failures -/

/-- A halted Core takes no step (the spec's decision D7, log entry 1): the step is a fault with the failure that halted
it. That the step looks at the bus first is log entry 11 (D4). -/
def Obligations.HaltedCoreTakesNoStep : Prop :=
  ∀ (s : State) (f : Failure), s.busOk = true → s.failure = some f → step s = .fault (.halted f)

/-- R90: a failed step changes no register, not the pc and no device. The form of a failed step is log entry 1 (D7);
that devices of another kind stay is log entry 3, that a console's read changes nothing log entry 2 (D10), that a
device's own failure ends the step log entry 16 (D9). -/
def Obligations.FailedStepChangesNothing : Prop :=
  ∀ (s t : State) (f : Failure), step s = .fault (.stepFailed f t) →
    t.regs = s.regs ∧ t.pc = s.pc ∧ t.devices = s.devices

/-- A failed step leaves the Core halted with its failure, and only a Core that was not halted has one; so the next
step is none (the spec's decision D7, log entry 1). A step that goes on leaves it not halted. That the step looks at
the bus first is log entry 11 (D4). -/
def Obligations.OnlyAFailedStepHalts : Prop :=
  (∀ (s t : State) (f : Failure), step s = .fault (.stepFailed f t) →
    s.failure = none ∧ t.failure = some f ∧ step t = .fault (.halted f)) ∧
  (∀ s t : State, step s = .next t → s.failure = none ∧ t.failure = none)

/-- No step raises the two failures that only a host's direct call can raise (R112, R113; RAM's size is its cell's
capacity by the spec's decision D5, log entry 12). The names of the failures are D14 (log entry 1), that of a device's
own failure log entry 16 (D9). -/
def Obligations.StepNeverRaisesHostOnlyFailures : Prop :=
  ∀ (s t : State) (f : Failure), step s = .fault (.stepFailed f t) →
    (∀ a, f.kind ≠ .deviceAddressOutOfRange a) ∧ (∀ o, f.kind ≠ .memoryCellOutOfBounds o)

/-- Which step can raise what (the table of R117): a fetch, the failure of one of its four reads; the dispatch, the
unsupported word; LB and LBU, phase load, and SB, phase store, the failure of their one access. A routing failure names
an address no device holds, a device's own failure one that no RAM (and for a store no console) holds; the first
unmapped fetch address is the one reported. The fetch order is the spec's decision D6 (log entry 13), that a device's
own failure ends the step as a missing device does its decision D9 (log entry 16), the phases and names its decision
D14 (log entry 1), the wrap of the sums its decision D3 (log entry 7). That RAM never fails inside its range is D5 (log
entry 12), that a console's write never fails D10 (log entry 17), that its read may D10 (log entry 2), that another
kind may fail log entry 3; the opcode values that tell LB, LBU and SB are presumed (G1, log entry 15). -/
def Obligations.FailuresByPhase : Prop :=
  ∀ (s t : State) (f : Failure), step s = .fault (.stepFailed f t) →
    (f.phase = .fetch ∧ ∃ j : Nat, j < 4 ∧
      (∀ i : Nat, i < j → findDevice s.devices (s.pc + BitVec.ofNat 32 i) ≠ none) ∧
      ((f.kind = .noDeviceAtAddress (s.pc + BitVec.ofNat 32 j) ∧
          findDevice s.devices (s.pc + BitVec.ofNat 32 j) = none) ∨
       (f.kind = .deviceFailure (s.pc + BitVec.ofNat 32 j) ∧
          ∃ d, findDevice s.devices (s.pc + BitVec.ofNat 32 j) = some d ∧ d.kindName ≠ .ram))) ∨
    (f.phase = .dispatch ∧ ∃ w s1, fetch s = .ok w s1 ∧ decode w = .error (.unsupportedInstruction w) ∧
      f.kind = .unsupportedInstruction w) ∨
    (f.phase = .load ∧ ∃ w s1 rd rs1 imm, fetch s = .ok w s1 ∧
      (decode w = .ok (.lb rd rs1 imm) ∨ decode w = .ok (.lbu rd rs1 imm)) ∧
      ((f.kind = .noDeviceAtAddress (s.reg rs1 + imm) ∧ findDevice s.devices (s.reg rs1 + imm) = none) ∨
       (f.kind = .deviceFailure (s.reg rs1 + imm) ∧
          ∃ d, findDevice s.devices (s.reg rs1 + imm) = some d ∧ d.kindName ≠ .ram))) ∨
    (f.phase = .store ∧ ∃ w s1 rs1 rs2 imm, fetch s = .ok w s1 ∧ decode w = .ok (.sb rs1 rs2 imm) ∧
      ((f.kind = .noDeviceAtAddress (s.reg rs1 + imm) ∧ findDevice s.devices (s.reg rs1 + imm) = none) ∨
       (f.kind = .deviceFailure (s.reg rs1 + imm) ∧
          ∃ d, findDevice s.devices (s.reg rs1 + imm) = some d ∧ d.kindName = .other)))

/-- A bus with a range past the top of the address space is refused, by the first such device, whatever else the state
holds (the spec's decision D4, and that the step makes the check is the model's choice, log entry 11). -/
def Obligations.WrappingRangesAreRefused : Prop :=
  ∀ (s : State) (earlier later : List Device) (d : Device), s.devices = earlier ++ d :: later →
    (∀ e ∈ earlier, e.base.toNat + e.size.toNat ≤ 2 ^ 32) → 2 ^ 32 < d.base.toNat + d.size.toNat →
    step s = .refused (.deviceRangeWraps d.base d.size)

/-! ### The whole machine -/

/-- Every step keeps the storage of every device in canonical form within its capacity, and the bus accepted. The
canonical form is the model's (log entries 5 and 20; the byte an unlisted offset reads as is the spec's decision D2),
the capacity D5 (log entry 12); the bus is accepted after the step because the step refuses any other (D4, log entry
11). -/
def Obligations.StepKeepsStorageCanonical : Prop :=
  ∀ s t : State, s.memoryOk = true → step s = .next t → t.memoryOk = true ∧ t.busOk = true

/-- The state after reset has its storage in canonical form and its bus accepted. The canonical form is the model's
(log entries 5 and 20), the accepted bus D4 (log entry 11), the bus of State.reset log entry 10. -/
def Obligations.ResetStorageIsCanonical : Prop :=
  State.reset.memoryOk = true ∧ State.reset.busOk = true

/-- An even pc stays even: only the host's setPc can make it odd, since JAL and BNE offsets are even and JALR clears
bit 0 (R48). The sums wrap by the spec's decision D3 (log entry 7). -/
def Obligations.EvenPcStaysEven : Prop :=
  ∀ s t : State, s.pc.getLsbD 0 = false → step s = .next t → t.pc.getLsbD 0 = false

/-- During a run the device list is constant: kinds, bases, sizes and order; a step that fails or goes on changes none
(R23, R32, R36). That the list stands in State is log entry 10 (D11), RAM's size D5 (log entry 12), another kind's constancy
log entry 3. -/
def Obligations.BusConfigurationIsConstant : Prop :=
  (∀ s t : State, step s = .next t → t.configuration = s.configuration) ∧
  (∀ (s t : State) (f : Failure), step s = .fault (.stepFailed f t) → t.configuration = s.configuration)

/-- Only SB changes a device: a step after which the devices differ ran an SB (R27, R50, R52). That a read changes no
device is log entry 2 for a console (D10) and log entry 3 for another kind; SB's opcode is presumed (G1, log entry
15). -/
def Obligations.OnlySbChangesDevices : Prop :=
  ∀ s t : State, step s = .next t → t.devices ≠ s.devices →
    ∃ w s1 rs1 rs2 imm, fetch s = .ok w s1 ∧ decode w = .ok (.sb rs1 rs2 imm)

/-- A register, register 0 among them, changes only in a step whose instruction names it as rd (R27, R141); BNE and SB
change none. -/
def Obligations.OnlyTheNamedRegisterChanges : Prop :=
  ∀ s t : State, step s = .next t → ∃ w s1 i, fetch s = .ok w s1 ∧ decode w = .ok i ∧
    (∀ r, t.reg r ≠ s.reg r → i.dest = some r) ∧ (i.op = .bne ∨ i.op = .sb → t.regs = s.regs)

/-- A console's output only grows, by at most one byte a step, and only at its end (R39, R52; the append is the spec's
decision D10, log entry 17). That a read changes no device is log entries 2 and 3. -/
def Obligations.ConsoleOutputOnlyGrows : Prop :=
  ∀ s t : State, step s = .next t → ∀ (k : Nat) (d : Device), s.devices[k]? = some d →
    ∃ d' more, t.devices[k]? = some d' ∧ d'.consoleOut = d.consoleOut ++ more ∧ more.length ≤ 1

/-- On a bus of RAM devices a step draws no free value, so nothing it does is left open (the model's own counter, log
entry 4). -/
def Obligations.RamOnlyStepDrawsNothing : Prop :=
  ∀ s t : State, (∀ d ∈ s.devices, d.kindName = .ram) → step s = .next t → t.draws = s.draws

/-! ### Host interface -/

/-- After the bring-up in the order of R130: the entry pc, zero registers (the spec's decision D1, log entry 6), not
halted, the devices in the order given with the kinds and ranges given. The latch is D7 (log entry 1), how a program
comes to run D11 (log entries 9 and 10). -/
def Obligations.BootPreparesTheRun : Prop :=
  ∀ (devices : List Device) (image : List (Word × Byte)) (entryPc : Word) (s : State),
    boot devices image entryPc = .ok () s →
    s.pc = entryPc ∧ (∀ i, s.reg i = 0#32) ∧ s.failure = none ∧
    s.configuration = devices.map (fun d => (d.kindName, d.base, d.size))

/-- The model's own interface (log entry 9): on canonical storage a word placed for the next fetch is the word fetched;
registers and pc stay, and on an accepted bus the next step runs the instruction it decodes to. The canonical storage
is log entries 5 and 20, the accepted bus D4 (log entry 11). -/
def Obligations.PlacedWordRunsNext : Prop :=
  ∀ (s : State) (w : Nat), w < 2 ^ 32 → s.memoryOk = true →
    fetch (s.withFetchWord 32 w) = .ok (BitVec.ofNat 32 w) (s.withFetchWord 32 w) ∧
    (s.withFetchWord 32 w).regs = s.regs ∧ (s.withFetchWord 32 w).pc = s.pc ∧
    (s.busOk = true → ∀ i, decode (BitVec.ofNat 32 w) = .ok i →
      step (s.withFetchWord 32 w) = exec i (s.withFetchWord 32 w))
end

