-- ==== Sys2Proof/Laws/Bits.lean ====
section
/-! SUPPORT. What each bit of a mask, a slice, a sign extension and a field is. -/

namespace Sys2Proof

theorem mask_getLsbD (n i : Nat) : (mask n).getLsbD i = (decide (i < n) && decide (i < 32)) := by
  unfold mask
  split
  · next h =>
    simp only [BitVec.getLsbD_allOnes]
    by_cases hi : i < 32
    · simp [hi]; omega
    · simp [hi]
  · next h =>
    have hn : n < 32 := by omega
    have e : (1#32 <<< n) - 1#32 = BitVec.ofNat 32 (2 ^ n - 1) := by
      apply BitVec.eq_of_toNat_eq
      have h1 : 2 ^ n ≤ 2 ^ 31 := Nat.pow_le_pow_right (by decide) (by omega)
      have h2 : 0 < 2 ^ n := Nat.two_pow_pos n
      simp only [BitVec.toNat_sub, BitVec.toNat_shiftLeft, BitVec.toNat_ofNat, Nat.shiftLeft_eq]
      omega
    rw [e]
    simp [BitVec.getLsbD_ofNat, Nat.testBit_two_pow_sub_one, Bool.and_comm]

theorem bitsSlice_getLsbD (v : Word) (s e i : Nat) :
    (bitsSlice v s e).getLsbD i = (decide (s ≤ e ∧ e ≤ 32) && decide (i < e - s) && v.getLsbD (s + i)) := by
  unfold bitsSlice
  split
  · next h =>
    simp only [BitVec.getLsbD_and, BitVec.getLsbD_ushiftRight, mask_getLsbD, h, and_self, decide_true, Bool.true_and]
    by_cases hi : i < e - s
    · have : i < 32 := by omega
      simp [hi, this]
    · simp [hi]
  · next h => simp [h]

theorem signExtend_getLsbD (v : Word) (bits : Nat) (h : 0 < bits) (i : Nat) (hi : i < 32) :
    (signExtend v bits h).getLsbD i = if i < bits then v.getLsbD i else v.getLsbD (bits - 1) := by
  unfold signExtend
  split
  · next hb => rw [if_pos (by omega)]
  · next hb =>
    have hm : (mask bits).getLsbD (bits - 1) = true := by rw [mask_getLsbD]; simp; omega
    simp only [BitVec.getLsbD_and, hm, Bool.and_true]
    split
    · next ht =>
      simp only [BitVec.getLsbD_or, BitVec.getLsbD_and, BitVec.getLsbD_not, mask_getLsbD, hi, ht]
      by_cases hb' : i < bits <;> simp [hb']
    · next hf =>
      simp only [BitVec.getLsbD_and, mask_getLsbD, hi]
      by_cases hb' : i < bits
      · simp [hb']
      · simp only [hb', decide_false, Bool.false_and, Bool.and_false, if_false]
        simpa using hf

theorem fieldRd_getLsbD (w : Word) (i : Nat) : (fieldRd w).getLsbD i = (decide (i < 5) && w.getLsbD (7 + i)) := by
  simp only [fieldRd, BitVec.getLsbD_setWidth, bitsSlice_getLsbD]
  by_cases h : i < 5 <;> simp [h]

theorem fieldRs1_getLsbD (w : Word) (i : Nat) : (fieldRs1 w).getLsbD i = (decide (i < 5) && w.getLsbD (15 + i)) := by
  simp only [fieldRs1, BitVec.getLsbD_setWidth, bitsSlice_getLsbD]
  by_cases h : i < 5 <;> simp [h]

theorem fieldRs2_getLsbD (w : Word) (i : Nat) : (fieldRs2 w).getLsbD i = (decide (i < 5) && w.getLsbD (20 + i)) := by
  simp only [fieldRs2, BitVec.getLsbD_setWidth, bitsSlice_getLsbD]
  by_cases h : i < 5 <;> simp [h]

theorem placeReg_getLsbD (r : RegIdx) (k i : Nat) :
    (placeReg r k).getLsbD i = (decide (i < 32) && decide (k ≤ i) && r.getLsbD (i - k)) := by
  simp only [placeReg, BitVec.getLsbD_shiftLeft, BitVec.getLsbD_setWidth]
  by_cases h : i < 32
  · by_cases hk : i < k
    · simp [h, hk, Nat.not_le.mpr hk]
    · have : i - k < 32 := by omega
      simp [h, hk, this, Nat.le_of_not_lt hk]
  · simp [h]

/-! The same, for the spelling `x[i]` that simp prefers where `i` is below the width. -/

theorem mask_getElem (n i : Nat) (hi : i < 32) : (mask n)[i] = decide (i < n) := by
  rw [← BitVec.getLsbD_eq_getElem, mask_getLsbD]
  simp [hi]

theorem bitsSlice_getElem (v : Word) (s e i : Nat) (hi : i < 32) :
    (bitsSlice v s e)[i] = (decide (s ≤ e ∧ e ≤ 32) && decide (i < e - s) && v.getLsbD (s + i)) := by
  rw [← BitVec.getLsbD_eq_getElem, bitsSlice_getLsbD]

theorem signExtend_getElem (v : Word) (bits : Nat) (h : 0 < bits) (i : Nat) (hi : i < 32) :
    (signExtend v bits h)[i] = if i < bits then v.getLsbD i else v.getLsbD (bits - 1) := by
  rw [← BitVec.getLsbD_eq_getElem, signExtend_getLsbD v bits h i hi]

theorem placeReg_getElem (r : RegIdx) (k i : Nat) (hi : i < 32) :
    (placeReg r k)[i] = (decide (k ≤ i) && r.getLsbD (i - k)) := by
  rw [← BitVec.getLsbD_eq_getElem, placeReg_getLsbD]
  simp [hi]

end Sys2Proof
end

