-- ==== Sys2Proof/Laws/State.lean ====
section
/-! SUPPORT. One lemma per field per update of the state, and the registers' read-after-write. -/

namespace Sys2Proof.Machine

section
variable (s : State) (i : RegIdx) (v : Word) (f : Failure) (d : Device)

@[simp] theorem State.setReg_pc : (s.setReg i v).pc = s.pc := rfl
@[simp] theorem State.setReg_failure : (s.setReg i v).failure = s.failure := rfl
@[simp] theorem State.setReg_devices : (s.setReg i v).devices = s.devices := rfl
@[simp] theorem State.setReg_draws : (s.setReg i v).draws = s.draws := rfl

@[simp] theorem State.setPc_regs : (s.setPc v).regs = s.regs := rfl
@[simp] theorem State.setPc_pc : (s.setPc v).pc = v := rfl
@[simp] theorem State.setPc_failure : (s.setPc v).failure = s.failure := rfl
@[simp] theorem State.setPc_devices : (s.setPc v).devices = s.devices := rfl
@[simp] theorem State.setPc_draws : (s.setPc v).draws = s.draws := rfl
@[simp] theorem State.setPc_reg : (s.setPc v).reg i = s.reg i := rfl

@[simp] theorem State.advance_regs : s.advance.regs = s.regs := rfl
@[simp] theorem State.advance_pc : s.advance.pc = s.pc + 4#32 := rfl
@[simp] theorem State.advance_failure : s.advance.failure = s.failure := rfl
@[simp] theorem State.advance_devices : s.advance.devices = s.devices := rfl
@[simp] theorem State.advance_draws : s.advance.draws = s.draws := rfl
@[simp] theorem State.advance_reg : s.advance.reg i = s.reg i := rfl

@[simp] theorem State.halt_regs : (s.halt f).regs = s.regs := rfl
@[simp] theorem State.halt_pc : (s.halt f).pc = s.pc := rfl
@[simp] theorem State.halt_failure : (s.halt f).failure = some f := rfl
@[simp] theorem State.halt_devices : (s.halt f).devices = s.devices := rfl
@[simp] theorem State.halt_draws : (s.halt f).draws = s.draws := rfl

@[simp] theorem State.addDevice_regs : (s.addDevice d).regs = s.regs := rfl
@[simp] theorem State.addDevice_pc : (s.addDevice d).pc = s.pc := rfl
@[simp] theorem State.addDevice_failure : (s.addDevice d).failure = s.failure := rfl
@[simp] theorem State.addDevice_devices : (s.addDevice d).devices = s.devices ++ [d] := rfl
@[simp] theorem State.addDevice_draws : (s.addDevice d).draws = s.draws := rfl

@[simp] theorem State.reg_setReg_same : (s.setReg i v).reg i = v := by
  simp [State.reg, State.setReg]

theorem State.reg_setReg_other {j : RegIdx} (h : j ≠ i) : (s.setReg i v).reg j = s.reg j := by
  have h' : i.toNat ≠ j.toNat := fun e => h (BitVec.eq_of_toNat_eq e.symm)
  simp [State.reg, State.setReg, h']

/-- Both cases at once: a register reads as written, every other as before (R14). -/
theorem State.reg_setReg (j : RegIdx) : (s.setReg i v).reg j = if j = i then v else s.reg j := by
  split
  · next h => subst h; simp
  · next h => exact State.reg_setReg_other s i v h

end

@[simp] theorem State.reset_reg (i : RegIdx) : State.reset.reg i = 0#32 := by
  simp [State.reg, State.reset]

end Sys2Proof.Machine
end

