-- ==== Sys2Proof/Laws/Memory.lean ====
section
/-! SUPPORT. Memory Cells and devices: read after write, and that every memory operation keeps the canonical form. -/

namespace Sys2Proof.Machine

theorem Memory.read_eq_unlisted_of_lt {m : Memory} {a : Nat} (h : ∀ c ∈ m, a < c.1) :
    Memory.read m a = Memory.unlisted := by
  induction m with
  | nil => rfl
  | cons c rest ih =>
    obtain ⟨k, b⟩ := c
    have hk : a < k := h (k, b) (by simp)
    have hne : k ≠ a := by omega
    simp only [Memory.read, hne, if_false]
    exact ih fun c hc => h c (by simp [hc])

theorem Memory.wf_cons {k : Nat} {b : Byte} {m : Memory} :
    Memory.wf ((k, b) :: m) = true ↔ b ≠ Memory.unlisted ∧ (∀ c ∈ m, k < c.1) ∧ Memory.wf m = true := by
  simp [Memory.wf, and_assoc]

theorem Memory.read_write_other {m : Memory} {a a' : Nat} {v : Byte} (h : a' ≠ a) :
    Memory.read (Memory.write m a v) a' = Memory.read m a' := by
  have h' : a ≠ a' := Ne.symm h
  induction m with
  | nil => simp only [Memory.write]; split <;> simp [Memory.read, h']
  | cons c rest ih =>
    obtain ⟨k, b⟩ := c
    simp only [Memory.write]
    split
    · simp only [Memory.read, ih]
    · split
      · next hk => subst hk; split <;> simp [Memory.read, h']
      · split <;> simp [Memory.read, h']

theorem Memory.read_write_same {m : Memory} (hm : Memory.wf m = true) (a : Nat) (v : Byte) :
    Memory.read (Memory.write m a v) a = v := by
  induction m with
  | nil => simp only [Memory.write]; split <;> simp_all [Memory.read]
  | cons c rest ih =>
    obtain ⟨k, b⟩ := c
    obtain ⟨-, hlt, hw⟩ := Memory.wf_cons.mp hm
    simp only [Memory.write]
    split
    · next hk =>
      have : k ≠ a := by omega
      simp only [Memory.read, this, if_false]
      exact ih hw
    · split
      · next hk =>
        subst hk
        split
        · next hv => rw [hv]; exact Memory.read_eq_unlisted_of_lt hlt
        · simp [Memory.read]
      · next hk hne =>
        split
        · next hv =>
          rw [hv]
          refine Memory.read_eq_unlisted_of_lt fun c hc => ?_
          rcases List.mem_cons.mp hc with rfl | hc
          · simp only; omega
          · have := hlt c hc; omega
        · simp [Memory.read]

theorem Memory.mem_write {m : Memory} {a : Nat} {v : Byte} {c : Host.Cell} (h : c ∈ Memory.write m a v) :
    c = (a, v) ∨ c ∈ m := by
  induction m with
  | nil => simp only [Memory.write] at h; split at h <;> simp_all
  | cons d rest ih =>
    obtain ⟨k, b⟩ := d
    simp only [Memory.write] at h
    split at h
    · rcases List.mem_cons.mp h with rfl | h
      · simp
      · rcases ih h with h | h <;> simp [h]
    · split at h
      · split at h
        · simp [h]
        · rcases List.mem_cons.mp h with rfl | h <;> simp_all
      · split at h
        · exact .inr h
        · rcases List.mem_cons.mp h with rfl | h
          · simp
          · exact .inr h

/-- A write keeps the canonical form. -/
theorem Memory.wf_write {m : Memory} (hm : Memory.wf m = true) (a : Nat) (v : Byte) :
    Memory.wf (Memory.write m a v) = true := by
  induction m with
  | nil =>
    simp only [Memory.write]
    split
    · rfl
    · next hv => exact Memory.wf_cons.mpr ⟨hv, by simp, rfl⟩
  | cons c rest ih =>
    obtain ⟨k, b⟩ := c
    obtain ⟨hb, hlt, hw⟩ := Memory.wf_cons.mp hm
    simp only [Memory.write]
    split
    · next hk =>
      refine Memory.wf_cons.mpr ⟨hb, fun c hc => ?_, ih hw⟩
      rcases Memory.mem_write hc with rfl | hc
      · exact hk
      · exact hlt c hc
    · split
      · next hk =>
        subst hk
        split
        · exact hw
        · next hv => exact Memory.wf_cons.mpr ⟨hv, hlt, hw⟩
      · next hk hne =>
        split
        · exact hm
        · next hv =>
          refine Memory.wf_cons.mpr ⟨hv, fun c hc => ?_, hm⟩
          rcases List.mem_cons.mp hc with rfl | hc
          · simp only; omega
          · have := hlt c hc; omega

theorem MemoryCell.wf_iff {c : MemoryCell} :
    c.wf = true ↔ c.bytes.wf = true ∧ ∀ x ∈ c.bytes, x.1 < c.capacity.toNat := by
  simp [MemoryCell.wf]

/-- The storage written at an offset below the capacity is still a well-formed cell. -/
theorem MemoryCell.wf_setByte {c : MemoryCell} (hc : c.wf = true) {o : Nat} (ho : o < c.capacity.toNat) (b : Byte) :
    MemoryCell.wf { c with bytes := c.bytes.write o b } = true := by
  obtain ⟨h1, h2⟩ := MemoryCell.wf_iff.mp hc
  refine MemoryCell.wf_iff.mpr ⟨Memory.wf_write h1 o b, fun x hx => ?_⟩
  rcases Memory.mem_write hx with rfl | hx
  · exact ho
  · exact h2 x hx

theorem MemoryCell.wf_new (capacity : Word) : (MemoryCell.new capacity).wf = true := rfl

/-- Everything a cell's write can do when it succeeds (R31). -/
theorem MemoryCell.write_ok {c c' : MemoryCell} {o : Nat} {b : Byte} (h : c.write o b = .ok c') :
    o < c.capacity.toNat ∧ c' = { c with bytes := c.bytes.write o b } := by
  unfold MemoryCell.write at h
  split at h
  · next ho => exact ⟨ho, (Except.ok.inj h).symm⟩
  · cases h

theorem Device.contains_iff {d : Device} {a : Word} :
    d.contains a = true ↔ d.base.toNat ≤ a.toNat ∧ a.toNat - d.base.toNat < d.size.toNat := by
  simp [Device.contains]

/-- Everything a device's write can do when it succeeds (R35, R38, R39): the byte set in RAM, the byte appended to a
console's output, or another device's acceptance; base, size and kind stay. -/
theorem Device.write_ok {d d' : Device} {a : Word} {b : Byte} {n n' : Nat} (h : d.write a b n = (.ok d', n')) :
    d.contains a = true ∧
    ((∃ cell, d.kind = .ram cell ∧ d.offset a < cell.capacity.toNat ∧ n' = n ∧
        d' = { d with kind := .ram { cell with bytes := cell.bytes.write (d.offset a) b } }) ∨
     (∃ size out, d.kind = .console size out ∧ n' = n ∧ d' = { d with kind := .console size (out ++ [b]) }) ∨
     (∃ size, d.kind = .other size ∧ n' = n + 1 ∧ d' = d ∧ Config.otherWriteOk n a b = true)) := by
  unfold Device.write at h
  split at h
  · next hc =>
    refine ⟨hc, ?_⟩
    split at h
    · next cell hk =>
      simp only [Prod.mk.injEq] at h
      obtain ⟨h, rfl⟩ := h
      cases hw : cell.write (d.offset a) b with
      | error k => rw [hw] at h; cases h
      | ok c' =>
        rw [hw] at h
        obtain ⟨ho, rfl⟩ := MemoryCell.write_ok hw
        exact .inl ⟨cell, hk, ho, rfl, (Except.ok.inj h).symm⟩
    · next size out hk =>
      simp only [Prod.mk.injEq] at h
      exact .inr (.inl ⟨size, out, hk, h.2.symm, (Except.ok.inj h.1).symm⟩)
    · next size hk =>
      simp only [Prod.mk.injEq] at h
      obtain ⟨h, hn⟩ := h
      split at h
      · next hw => exact .inr (.inr ⟨size, hk, hn.symm, (Except.ok.inj h).symm, hw⟩)
      · cases h
  · simp at h

/-- A device's failures (R34, R35): out of range, or its own; a RAM device inside its range never fails (R38, R113). -/
theorem Device.write_error {d : Device} {a : Word} {b : Byte} {n n' : Nat} {k : FailureKind}
    (hc : d.contains a = true) (h : d.write a b n = (.error k, n')) :
    k = .deviceFailure a ∧ n' = n + 1 ∧ d.kindName = .other := by
  obtain ⟨base, kind⟩ := d
  cases kind with
  | ram cell =>
    have ho := (Device.contains_iff.mp hc).2
    simp only [Device.size] at ho
    simp [Device.write, hc, MemoryCell.write, Device.offset, ho, Except.map] at h
  | console size out => simp [Device.write, hc] at h
  | other size =>
    simp only [Device.write, hc, if_true, Prod.mk.injEq] at h
    obtain ⟨h, rfl⟩ := h
    split at h
    · cases h
    · simp_all [Device.kindName]

/-- Everything a device's read can answer inside its range (R34, R38, R39). -/
theorem Device.read_inside {d : Device} {a : Word} (n : Nat) (hc : d.contains a = true) :
    (∃ cell, d.kind = .ram cell ∧ d.read a n = (.ok (cell.bytes.read (d.offset a)), n)) ∨
    (∃ size out, d.kind = .console size out ∧ d.read a n = (freeAnswer a (Config.consoleRead n a), n + 1)) ∨
    (∃ size, d.kind = .other size ∧ d.read a n = (freeAnswer a (Config.otherRead n a), n + 1)) := by
  obtain ⟨base, kind⟩ := d
  cases kind with
  | ram cell =>
    have ho := (Device.contains_iff.mp hc).2
    simp only [Device.size] at ho
    exact .inl ⟨cell, rfl, by simp [Device.read, hc, MemoryCell.read, Device.offset, ho]⟩
  | console size out => exact .inr (.inl ⟨size, out, rfl, by simp [Device.read, hc]⟩)
  | other size => exact .inr (.inr ⟨size, rfl, by simp [Device.read, hc]⟩)

theorem Device.contains_congr {d d' : Device} (hb : d'.base = d.base) (hs : d'.size = d.size) (a : Word) :
    d'.contains a = d.contains a := by
  unfold Device.contains
  rw [hb, hs]

theorem Device.rangeOk_congr {d d' : Device} (hb : d'.base = d.base) (hs : d'.size = d.size) : d'.rangeOk = d.rangeOk := by
  unfold Device.rangeOk
  rw [hb, hs]

/-- A device's write keeps base, kind, size, the range check and the canonical form. -/
theorem Device.write_keeps {d d' : Device} {a : Word} {b : Byte} {n n' : Nat} (h : d.write a b n = (.ok d', n')) :
    d'.base = d.base ∧ d'.kindName = d.kindName ∧ d'.size = d.size ∧ d'.rangeOk = d.rangeOk ∧
    (d.wf = true → d'.wf = true) := by
  obtain ⟨-, ⟨cell, hk, ho, -, rfl⟩ | ⟨size, out, hk, -, rfl⟩ | ⟨size, hk, -, rfl, -⟩⟩ := Device.write_ok h
  · refine ⟨rfl, by simp [Device.kindName, hk], by simp [Device.size, hk],
      Device.rangeOk_congr rfl (by simp [Device.size, hk]),
      fun hw => ?_⟩
    simp only [Device.wf, hk] at hw ⊢
    exact MemoryCell.wf_setByte hw ho b
  · exact ⟨rfl, by simp [Device.kindName, hk], by simp [Device.size, hk],
      Device.rangeOk_congr rfl (by simp [Device.size, hk]),
      fun _ => rfl⟩
  · exact ⟨rfl, rfl, rfl, rfl, id⟩

end Sys2Proof.Machine
end

