-- ==== Sys2Proof/Laws/Bus.lean ====
section
/-! SUPPORT. What a bus read, a bus write and a fetch can do, said once. -/

namespace Sys2Proof.Machine

theorem findDevice_contains {devices : List Device} {a : Word} {d : Device} (h : findDevice devices a = some d) :
    d.contains a = true := by
  simpa using List.find?_some h

theorem findDevice_mem {devices : List Device} {a : Word} {d : Device} (h : findDevice devices a = some d) :
    d ∈ devices :=
  List.mem_of_find?_eq_some h

/-- Where the found device stands: after devices that do not hold the address (R37). -/
theorem findDevice_split {devices : List Device} {a : Word} {d : Device} (h : findDevice devices a = some d) :
    ∃ earlier later, devices = earlier ++ d :: later ∧ d.contains a = true ∧
      ∀ e ∈ earlier, e.contains a = false := by
  obtain ⟨h1, earlier, later, rfl, h2⟩ := List.find?_eq_some_iff_append.mp h
  exact ⟨earlier, later, rfl, h1, fun e he => by simpa using h2 e he⟩

theorem findDevice_append {earlier later : List Device} {d : Device} {a : Word}
    (he : ∀ e ∈ earlier, e.contains a = false) (hd : d.contains a = true) :
    findDevice (earlier ++ d :: later) a = some d := by
  have : findDevice earlier a = none := List.find?_eq_none.mpr fun e h => by simp [he e h]
  simp only [findDevice] at this
  simp [findDevice, List.find?_append, this, hd]

/-- Only the found device is replaced. -/
theorem replaceFound_append {earlier later : List Device} {d d' : Device} {a : Word}
    (he : ∀ e ∈ earlier, e.contains a = false) (hd : d.contains a = true) :
    replaceFound (earlier ++ d :: later) a d' = earlier ++ d' :: later := by
  induction earlier with
  | nil => simp [replaceFound, hd]
  | cons e rest ih =>
    have h1 : e.contains a = false := he e (by simp)
    simp only [List.cons_append, replaceFound, h1, Bool.false_eq_true, if_false]
    rw [ih fun x hx => he x (by simp [hx])]

/-- After a replacement of the same range every address finds the device it found, or the new one in the found one's
place. -/
theorem findDevice_replaceFound {devices : List Device} {a : Word} {d d' : Device} (h : findDevice devices a = some d)
    (hc : ∀ x, d'.contains x = d.contains x) (x : Word) :
    findDevice (replaceFound devices a d') x = findDevice devices x ∨
    (findDevice devices x = some d ∧ findDevice (replaceFound devices a d') x = some d') := by
  induction devices with
  | nil => cases h
  | cons c rest ih =>
    simp only [findDevice, List.find?_cons] at h ⊢
    simp only [replaceFound]
    cases ha : c.contains a with
    | true =>
      simp only [ha, Option.some.injEq] at h
      subst h
      cases hx : c.contains x with
      | true => exact .inr ⟨rfl, by simp [hc, hx]⟩
      | false => exact .inl (by simp [hc, hx])
    | false =>
      simp only [ha] at h
      cases hx : c.contains x with
      | true => exact .inl (by simp [hx])
      | false => simpa [findDevice, hx] using ih h

/-- A property of every device survives the replacement by a device that has it. -/
theorem replaceFound_all {devices : List Device} {a : Word} {d' : Device} {p : Device → Bool}
    (h : devices.all p = true) (hd : p d' = true) : (replaceFound devices a d').all p = true := by
  induction devices with
  | nil => rfl
  | cons d rest ih =>
    simp only [List.all_cons, Bool.and_eq_true] at h
    simp only [replaceFound]
    split
    · simp [hd, h.2]
    · simp [h.1, ih h.2]

/-- Everything a bus read can do: no device, or the found device's answer; only the count of draws may change. -/
theorem busRead_cases (s : State) (a : Word) :
    (findDevice s.devices a = none ∧ busRead s a = .fail (.noDeviceAtAddress a) s) ∨
    (∃ base cell, findDevice s.devices a = some ⟨base, .ram cell⟩ ∧
      busRead s a = .ok (cell.bytes.read (a.toNat - base.toNat)) s) ∨
    (∃ d, findDevice s.devices a = some d ∧ d.kindName ≠ .ram ∧
      ((∃ b, busRead s a = .ok b { s with draws := s.draws + 1 }) ∨
       busRead s a = .fail (.deviceFailure a) { s with draws := s.draws + 1 })) := by
  cases hf : findDevice s.devices a with
  | none => exact .inl ⟨rfl, by simp [busRead, hf]⟩
  | some d =>
    right
    obtain ⟨cell, hk, hr⟩ | ⟨size, out, hk, hr⟩ | ⟨size, hk, hr⟩ :=
      Device.read_inside s.draws (findDevice_contains hf)
    · left
      obtain ⟨base, kind⟩ := d
      simp only at hk
      subst hk
      exact ⟨base, cell, rfl, by simp [busRead, hf, hr, Device.offset]⟩
    · right
      refine ⟨d, rfl, by simp [Device.kindName, hk], ?_⟩
      cases hv : Config.consoleRead s.draws a with
      | none => exact .inr (by simp [busRead, hf, hr, hv, freeAnswer])
      | some b => exact .inl ⟨b, by simp [busRead, hf, hr, hv, freeAnswer]⟩
    · right
      refine ⟨d, rfl, by simp [Device.kindName, hk], ?_⟩
      cases hv : Config.otherRead s.draws a with
      | none => exact .inr (by simp [busRead, hf, hr, hv, freeAnswer])
      | some b => exact .inl ⟨b, by simp [busRead, hf, hr, hv, freeAnswer]⟩

/-- A read changes nothing but the model's count of draws (R52). -/
theorem busRead_after {s s1 : State} {a : Word} {r : Byte ⊕ FailureKind}
    (h : busRead s a = r.elim (fun b => .ok b s1) (fun k => .fail k s1)) :
    ∃ n, s.draws ≤ n ∧ s1 = { s with draws := n } := by
  rcases busRead_cases s a with ⟨-, e⟩ | ⟨_, _, -, e⟩ | ⟨_, -, -, ⟨_, e⟩ | e⟩ <;> rw [e] at h <;>
    cases r <;> simp only [Sum.elim_inl, Sum.elim_inr] at h <;> cases h
  · exact ⟨s.draws, le_refl _, rfl⟩
  · exact ⟨s.draws, le_refl _, rfl⟩
  · exact ⟨s.draws + 1, by omega, rfl⟩
  · exact ⟨s.draws + 1, by omega, rfl⟩

theorem busRead_ok_after {s s1 : State} {a : Word} {b : Byte} (h : busRead s a = .ok b s1) :
    ∃ n, s.draws ≤ n ∧ s1 = { s with draws := n } :=
  busRead_after (r := .inl b) h

/-- A failed read: why, and what it leaves (R41, R111, R112, R113). -/
theorem busRead_fail_after {s s1 : State} {a : Word} {k : FailureKind} (h : busRead s a = .fail k s1) :
    (k = .noDeviceAtAddress a ∨ k = .deviceFailure a) ∧ ∃ n, s.draws ≤ n ∧ s1 = { s with draws := n } := by
  refine ⟨?_, busRead_after (r := .inr k) h⟩
  rcases busRead_cases s a with ⟨-, e⟩ | ⟨_, _, -, e⟩ | ⟨_, -, -, ⟨_, e⟩ | e⟩ <;> rw [e] at h <;> cases h <;> simp

/-- Everything a bus write that succeeds can do (R42): the found device's write, in its place. -/
theorem busWrite_ok {s s1 : State} {a : Word} {b : Byte} {u : Unit} (h : busWrite s a b = .ok u s1) :
    ∃ d d' n, findDevice s.devices a = some d ∧ d.write a b s.draws = (.ok d', n) ∧
      s1 = { s with devices := replaceFound s.devices a d', draws := n } := by
  unfold busWrite at h
  split at h
  · cases h
  · next d hf =>
    split at h
    · next d' n hw => cases h; exact ⟨d, d', n, hf, hw, rfl⟩
    · cases h

/-- A failed write: why, and what it leaves; no device changes (R42, R90). -/
theorem busWrite_fail {s s1 : State} {a : Word} {b : Byte} {k : FailureKind} (h : busWrite s a b = .fail k s1) :
    (k = .noDeviceAtAddress a ∨ k = .deviceFailure a) ∧ ∃ n, s.draws ≤ n ∧ s1 = { s with draws := n } := by
  unfold busWrite at h
  split at h
  · cases h; exact ⟨.inl rfl, s.draws, le_refl _, rfl⟩
  · next d hf =>
    split at h
    · cases h
    · next k' n hw =>
      cases h
      obtain ⟨rfl, rfl, -⟩ := Device.write_error (findDevice_contains hf) hw
      exact ⟨.inr rfl, s.draws + 1, by omega, rfl⟩

/-- A bus write keeps registers, pc and latch, and the configuration of the bus; canonical storage stays canonical. -/
theorem busWrite_keeps {s s1 : State} {a : Word} {b : Byte} {u : Unit} (h : busWrite s a b = .ok u s1) :
    s1.regs = s.regs ∧ s1.pc = s.pc ∧ s1.failure = s.failure ∧ s1.configuration = s.configuration ∧
    (s.busOk = true → s1.busOk = true) ∧ (s.memoryOk = true → s1.memoryOk = true) := by
  obtain ⟨d, d', n, hf, hw, rfl⟩ := busWrite_ok h
  obtain ⟨k1, k2, k3, k4, k5⟩ := Device.write_keeps hw
  refine ⟨rfl, rfl, rfl, ?_, fun ho => ?_, fun hm => ?_⟩
  · obtain ⟨earlier, later, hs, hc, he⟩ := findDevice_split hf
    simp [State.configuration, hs, replaceFound_append he hc, k1, k2, k3]
  · refine replaceFound_all ho ?_
    rw [k4]
    exact List.all_eq_true.mp ho d (findDevice_mem hf)
  · exact replaceFound_all hm (k5 (List.all_eq_true.mp hm d (findDevice_mem hf)))

theorem BusResult.andThen_ok {α β : Type} {r : BusResult α} {f : α → State → BusResult β} {v : β} {t : State}
    (h : r.andThen f = .ok v t) : ∃ x s, r = .ok x s ∧ f x s = .ok v t := by
  cases r with
  | ok x s => exact ⟨x, s, rfl, h⟩
  | fail k s => cases h

theorem BusResult.andThen_fail {α β : Type} {r : BusResult α} {f : α → State → BusResult β} {k : FailureKind}
    {t : State} (h : r.andThen f = .fail k t) :
    r = .fail k t ∨ ∃ x s, r = .ok x s ∧ f x s = .fail k t := by
  cases r with
  | ok x s => exact .inr ⟨x, s, rfl, h⟩
  | fail k' s => exact .inl (by simpa [BusResult.andThen] using h)

/-- A fetch that succeeds made its four reads in order, each from the state the one before left (R45). -/
theorem fetch_ok {s s1 : State} {w : Word} (h : fetch s = .ok w s1) :
    ∃ b0 b1 b2 b3 n0 n1 n2 n3,
      busRead s s.pc = .ok b0 { s with draws := n0 } ∧
      busRead { s with draws := n0 } (s.pc + 1#32) = .ok b1 { s with draws := n1 } ∧
      busRead { s with draws := n1 } (s.pc + 2#32) = .ok b2 { s with draws := n2 } ∧
      busRead { s with draws := n2 } (s.pc + 3#32) = .ok b3 { s with draws := n3 } ∧
      s.draws ≤ n0 ∧ n0 ≤ n1 ∧ n1 ≤ n2 ∧ n2 ≤ n3 ∧
      w = wordOfBytes b0 b1 b2 b3 ∧ s1 = { s with draws := n3 } := by
  obtain ⟨b0, t0, h0, h⟩ := BusResult.andThen_ok h
  obtain ⟨n0, l0, rfl⟩ := busRead_ok_after h0
  obtain ⟨b1, t1, h1, h⟩ := BusResult.andThen_ok h
  obtain ⟨n1, l1, rfl⟩ := busRead_ok_after h1
  obtain ⟨b2, t2, h2, h⟩ := BusResult.andThen_ok h
  obtain ⟨n2, l2, rfl⟩ := busRead_ok_after h2
  obtain ⟨b3, t3, h3, h⟩ := BusResult.andThen_ok h
  obtain ⟨n3, l3, rfl⟩ := busRead_ok_after h3
  simp only [BusResult.ok.injEq] at h
  exact ⟨b0, b1, b2, b3, n0, n1, n2, n3, h0, h1, h2, h3, l0, l1, l2, l3, h.1.symm, h.2.symm⟩

/-- A fetch that succeeds changes nothing but the count of draws (R45, R86). -/
theorem fetch_ok_after {s s1 : State} {w : Word} (h : fetch s = .ok w s1) :
    ∃ n, s.draws ≤ n ∧ s1 = { s with draws := n } := by
  obtain ⟨-, -, -, -, n0, n1, n2, n3, -, -, -, -, l0, l1, l2, l3, -, e⟩ := fetch_ok h
  exact ⟨n3, by omega, e⟩

/-- A failed fetch: a routing failure or a device's own, at one of pc .. pc+3; it leaves all but the count of draws
(R46, R117). -/
theorem fetch_fail_after {s s1 : State} {k : FailureKind} (h : fetch s = .fail k s1) :
    (∃ j : Nat, j < 4 ∧ (k = .noDeviceAtAddress (s.pc + BitVec.ofNat 32 j) ∨
      k = .deviceFailure (s.pc + BitVec.ofNat 32 j))) ∧ ∃ n, s.draws ≤ n ∧ s1 = { s with draws := n } := by
  rcases BusResult.andThen_fail h with h0 | ⟨b0, t0, h0, h⟩
  · obtain ⟨hk, hn⟩ := busRead_fail_after h0
    exact ⟨⟨0, by decide, by simpa using hk⟩, hn⟩
  obtain ⟨n0, l0, rfl⟩ := busRead_ok_after h0
  rcases BusResult.andThen_fail h with h1 | ⟨b1, t1, h1, h⟩
  · obtain ⟨hk, n, ln, e⟩ := busRead_fail_after h1
    exact ⟨⟨1, by decide, hk⟩, n, le_trans l0 ln, e⟩
  obtain ⟨n1, l1, rfl⟩ := busRead_ok_after h1
  simp only at l1
  rcases BusResult.andThen_fail h with h2 | ⟨b2, t2, h2, h⟩
  · obtain ⟨hk, n, ln, e⟩ := busRead_fail_after h2
    exact ⟨⟨2, by decide, hk⟩, n, by simp only at ln; omega, e⟩
  obtain ⟨n2, l2, rfl⟩ := busRead_ok_after h2
  simp only at l2
  rcases BusResult.andThen_fail h with h3 | ⟨b3, t3, h3, h⟩
  · obtain ⟨hk, n, ln, e⟩ := busRead_fail_after h3
    exact ⟨⟨3, by decide, hk⟩, n, by simp only at ln; omega, e⟩
  · cases h

/-- The loader keeps the configuration and the canonical form (R132). -/
theorem loadImage_keeps {image : List (Word × Byte)} {s t : State} {u : Unit} (h : loadImage s image = .ok u t) :
    t.configuration = s.configuration ∧ (s.memoryOk = true → t.memoryOk = true) := by
  induction image generalizing s with
  | nil => cases h; exact ⟨rfl, id⟩
  | cons c rest ih =>
    obtain ⟨a, b⟩ := c
    obtain ⟨u', s1, h1, h2⟩ := BusResult.andThen_ok h
    obtain ⟨-, -, -, k1, -, k2⟩ := busWrite_keeps h1
    obtain ⟨i1, i2⟩ := ih h2
    exact ⟨i1.trans k1, fun hm => i2 (k2 hm)⟩

end Sys2Proof.Machine
end

