-- ==== Sys2Proof/Laws/Exec.lean ====
section
/-! SUPPORT. What each handler and a step can do, said once. -/

namespace Sys2Proof.Machine

/-- Everything a load that goes on can do (R99): the routed byte, extended, into rd; pc + 4. -/
theorem loadByte_next {extend : Byte → Word} {rd rs1 : RegIdx} {imm : Word} {s t : State}
    (h : loadByte extend rd rs1 imm s = .next t) :
    ∃ b n, s.draws ≤ n ∧ busRead s (basePlusImm s rs1 imm) = .ok b { s with draws := n } ∧
      t = (State.setReg { s with draws := n } rd (extend b)).advance := by
  unfold loadByte at h
  split at h
  · next b s1 hr =>
    obtain ⟨n, hn, rfl⟩ := busRead_ok_after hr
    cases h
    exact ⟨b, n, hn, hr, rfl⟩
  · cases h

/-- Everything a load that stops can do (R103): the failure of its one bus read, phase load. -/
theorem loadByte_fault {extend : Byte → Word} {rd rs1 : RegIdx} {imm : Word} {s : State} {r : Fault}
    (h : loadByte extend rd rs1 imm s = .fault r) :
    ∃ k n, s.draws ≤ n ∧
      (k = .noDeviceAtAddress (basePlusImm s rs1 imm) ∨ k = .deviceFailure (basePlusImm s rs1 imm)) ∧
      r = .stepFailed ⟨k, .load⟩ (State.halt { s with draws := n } ⟨k, .load⟩) := by
  unfold loadByte at h
  split at h
  · cases h
  · next k s1 hr =>
    obtain ⟨hk, n, hn, rfl⟩ := busRead_fail_after hr
    simp only [failStep, Host.Outcome.fault.injEq] at h
    exact ⟨k, n, hn, hk, h.symm⟩

theorem loadByte_not_refused {extend : Byte → Word} {rd rs1 : RegIdx} {imm : Word} {s : State} {r : Refusal} :
    loadByte extend rd rs1 imm s ≠ .refused r := by
  unfold loadByte
  split <;> simp [failStep]

/-- Everything a store that goes on can do (R102): the routed device takes the byte; pc + 4. -/
theorem execSb_next {rs1 rs2 : RegIdx} {imm : Word} {s t : State} (h : execSb rs1 rs2 imm s = .next t) :
    ∃ s1, busWrite s (basePlusImm s rs1 imm) (lowByte s rs2) = .ok () s1 ∧ t = s1.advance := by
  unfold execSb at h
  split at h
  · next s1 hw => cases h; exact ⟨s1, hw, rfl⟩
  · cases h

/-- Everything a store that stops can do (R103): the failure of its one bus write, phase store; no device changes. -/
theorem execSb_fault {rs1 rs2 : RegIdx} {imm : Word} {s : State} {r : Fault}
    (h : execSb rs1 rs2 imm s = .fault r) :
    ∃ k n, s.draws ≤ n ∧
      (k = .noDeviceAtAddress (basePlusImm s rs1 imm) ∨ k = .deviceFailure (basePlusImm s rs1 imm)) ∧
      r = .stepFailed ⟨k, .store⟩ (State.halt { s with draws := n } ⟨k, .store⟩) := by
  unfold execSb at h
  split at h
  · cases h
  · next k s1 hw =>
    obtain ⟨hk, n, hn, rfl⟩ := busWrite_fail hw
    simp only [failStep, Host.Outcome.fault.injEq] at h
    exact ⟨k, n, hn, hk, h.symm⟩

theorem execSb_not_refused {rs1 rs2 : RegIdx} {imm : Word} {s : State} {r : Refusal} :
    execSb rs1 rs2 imm s ≠ .refused r := by
  unfold execSb
  split <;> simp [failStep]

/-- No meaning refuses. -/
theorem exec_not_refused (i : Instr) (s : State) (r : Refusal) : exec i s ≠ .refused r := by
  cases i with
  | lui => simp [exec, execLui]
  | jal => simp [exec, execJal]
  | jalr => simp [exec, execJalr]
  | bne => simp [exec, execBne]
  | lb => exact loadByte_not_refused
  | lbu => exact loadByte_not_refused
  | sb => exact execSb_not_refused
  | addi => simp [exec, execAddi]

/-- The five ways a step can go (R85, R89): the refused bus, the halted Core, the failed fetch, the unsupported word,
the decoded instruction. The next steps of a proof are the laws of `fetch` and of the handlers. -/
theorem step_cases (s : State) :
    (∃ d, refusedDevice s.devices = some d ∧ step s = .refused (.deviceRangeWraps d.base d.size)) ∨
    (refusedDevice s.devices = none ∧ ∃ f, s.failure = some f ∧ step s = .fault (.halted f)) ∨
    (refusedDevice s.devices = none ∧ s.failure = none ∧
      ((∃ k n, s.draws ≤ n ∧ fetch s = .fail k { s with draws := n } ∧
          step s = failStep { s with draws := n } k .fetch) ∨
       (∃ w n e, s.draws ≤ n ∧ fetch s = .ok w { s with draws := n } ∧ decode w = .error e ∧
          step s = failStep { s with draws := n } (.unsupportedInstruction w) .dispatch) ∨
       (∃ w n i, s.draws ≤ n ∧ fetch s = .ok w { s with draws := n } ∧ decode w = .ok i ∧
          step s = exec i { s with draws := n }))) := by
  cases hr : refusedDevice s.devices with
  | some d => exact .inl ⟨d, rfl, by simp [step, cycle, hr]⟩
  | none =>
    right
    cases hf : s.failure with
    | some f => exact .inl ⟨rfl, f, rfl, by simp [step, cycle, hr, hf]⟩
    | none =>
      refine .inr ⟨rfl, rfl, ?_⟩
      cases hw : fetch s with
      | fail k s1 =>
        obtain ⟨-, n, hn, rfl⟩ := fetch_fail_after hw
        exact .inl ⟨k, n, hn, by rw [hf], by simp [step, cycle, hr, hf, hw]⟩
      | ok w s1 =>
        obtain ⟨n, hn, rfl⟩ := fetch_ok_after hw
        cases hd : decode w with
        | error e => exact .inr (.inl ⟨w, n, e, hn, by rw [hf], hd, by simp [step, cycle, hr, hf, hw, runWord, hd]⟩)
        | ok i => exact .inr (.inr ⟨w, n, i, hn, by rw [hf], hd, by simp [step, cycle, hr, hf, hw, runWord, hd]⟩)

/-- A step that goes on ran the decoded instruction of the fetched word. -/
theorem step_next {s t : State} (h : step s = .next t) :
    refusedDevice s.devices = none ∧ s.failure = none ∧
    ∃ w n i, s.draws ≤ n ∧ fetch s = .ok w { s with draws := n } ∧ decode w = .ok i ∧
      exec i { s with draws := n } = .next t := by
  rcases step_cases s with ⟨_, -, e⟩ | ⟨-, _, -, e⟩ | ⟨h1, h2, ⟨_, _, -, -, e⟩ | ⟨_, _, _, -, -, -, e⟩ | ⟨w, n, i, a, b, c, e⟩⟩ <;>
    rw [e] at h
  · cases h
  · cases h
  · cases h
  · cases h
  · exact ⟨h1, h2, w, n, i, a, b, c, h⟩

theorem refusedDevice_none_iff {devices : List Device} :
    refusedDevice devices = none ↔ ∀ d ∈ devices, d.rangeOk = true := by
  simp [refusedDevice]

end Sys2Proof.Machine
end

