-- ==== Sys2Proof/Laws/PerInstr.lean ====
section
/-! SUPPORT. Per instruction: the encoded word selects the instruction's own row of the supported table, whatever the operands. -/

namespace Sys2Proof.Laws.EncodedOp

/-- The statement of the family: the dispatch finds the instruction's operation in its encoding (R73, R82). -/
def Statement (i : Instr) : Prop := dispatch (encode i) = some i.op

/-- A word's row is fixed by its bits 6:0 and 14:12. -/
theorem dispatch_of_bits {w c : Word} {r : Op} (h : w &&& 0x707F#32 = c)
    (hc : (supportedTable.find? (fun x => decide (c &&& x.mask = x.bits))).map (fun x => x.op) = some r) :
    dispatch w = some r := by
  have e : ∀ m : Word, 0x707F#32 &&& m = m → c &&& m = w &&& m := fun m hm => by
    rw [← h, BitVec.and_assoc, hm]
  have e1 := e 0x7F#32 (by decide)
  have e2 := e 0x707F#32 (by decide)
  simp only [supportedTable, e1, e2, List.find?_cons, List.find?_nil] at hc
  simpa only [dispatch, supportedTable, TableRow.matchesWord, List.find?_cons, List.find?_nil] using hc

theorem encI_low (op f3 : Word) (rd rs1 : RegIdx) (i : Word) (hop : op &&& 0x7F#32 = op) (hf : f3 &&& 7#32 = f3) :
    encI op f3 rd rs1 i &&& 0x707F#32 = (f3 <<< 12) ||| op := by
  rw [← hop, ← hf]
  apply BitVec.eq_of_getLsbD_eq
  intro k hk
  interval_cases k <;> simp [encI, placeReg_getElem, bitsSlice_getElem]

theorem encS_low (op f3 : Word) (rs1 rs2 : RegIdx) (i : Word) (hop : op &&& 0x7F#32 = op) (hf : f3 &&& 7#32 = f3) :
    encS op f3 rs1 rs2 i &&& 0x707F#32 = (f3 <<< 12) ||| op := by
  rw [← hop, ← hf]
  apply BitVec.eq_of_getLsbD_eq
  intro k hk
  interval_cases k <;> simp [encS, placeReg_getElem, bitsSlice_getElem]

theorem encB_low (op f3 : Word) (rs1 rs2 : RegIdx) (i : Word) (hop : op &&& 0x7F#32 = op) (hf : f3 &&& 7#32 = f3) :
    encB op f3 rs1 rs2 i &&& 0x707F#32 = (f3 <<< 12) ||| op := by
  rw [← hop, ← hf]
  apply BitVec.eq_of_getLsbD_eq
  intro k hk
  interval_cases k <;> simp [encB, placeReg_getElem, bitsSlice_getElem]

theorem encU_low (op : Word) (rd : RegIdx) (i : Word) (hop : op &&& 0x7F#32 = op) :
    encU op rd i &&& 0x7F#32 = op := by
  rw [← hop]
  apply BitVec.eq_of_getLsbD_eq
  intro k hk
  interval_cases k <;> simp [encU, placeReg_getElem]

theorem encJ_low (op : Word) (rd : RegIdx) (i : Word) (hop : op &&& 0x7F#32 = op) :
    encJ op rd i &&& 0x7F#32 = op := by
  rw [← hop]
  apply BitVec.eq_of_getLsbD_eq
  intro k hk
  interval_cases k <;> simp [encJ, placeReg_getElem, bitsSlice_getElem]

theorem lui (rd : RegIdx) (imm20 : Word) : Statement (.lui rd imm20) := by
  have h := encU_low 0x37#32 rd imm20 (by decide)
  simp [Statement, dispatch, supportedTable, TableRow.matchesWord, encode, h, Instr.op]

theorem jal (rd : RegIdx) (imm : Word) : Statement (.jal rd imm) := by
  have h := encJ_low 0x6F#32 rd imm (by decide)
  simp [Statement, dispatch, supportedTable, TableRow.matchesWord, encode, h, Instr.op]

theorem jalr (rd rs1 : RegIdx) (imm : Word) : Statement (.jalr rd rs1 imm) :=
  dispatch_of_bits (encI_low 0x67#32 0#32 rd rs1 imm (by decide) (by decide)) (r := .jalr) (by decide)

theorem bne (rs1 rs2 : RegIdx) (imm : Word) : Statement (.bne rs1 rs2 imm) :=
  dispatch_of_bits (encB_low 0x63#32 1#32 rs1 rs2 imm (by decide) (by decide)) (r := .bne) (by decide)

theorem lb (rd rs1 : RegIdx) (imm : Word) : Statement (.lb rd rs1 imm) :=
  dispatch_of_bits (encI_low 0x03#32 0#32 rd rs1 imm (by decide) (by decide)) (r := .lb) (by decide)

theorem lbu (rd rs1 : RegIdx) (imm : Word) : Statement (.lbu rd rs1 imm) :=
  dispatch_of_bits (encI_low 0x03#32 4#32 rd rs1 imm (by decide) (by decide)) (r := .lbu) (by decide)

theorem sb (rs1 rs2 : RegIdx) (imm : Word) : Statement (.sb rs1 rs2 imm) :=
  dispatch_of_bits (encS_low 0x23#32 0#32 rs1 rs2 imm (by decide) (by decide)) (r := .sb) (by decide)

theorem addi (rd rs1 : RegIdx) (imm : Word) : Statement (.addi rd rs1 imm) :=
  dispatch_of_bits (encI_low 0x13#32 0#32 rd rs1 imm (by decide) (by decide)) (r := .addi) (by decide)

end Sys2Proof.Laws.EncodedOp
end

