-- ==== Sys2Proof/Laws/Place.lean ====
section
/-! SUPPORT. What placing a byte for the next fetch does to the RAM bytes the bus shows, to the bus and to its storage. -/

namespace Sys2Proof.Machine

/-- A RAM byte the bus shows is what a bus read answers, drawing no free value. -/
theorem busRead_of_ramByte {s : State} {a : Word} {b : Byte} (h : s.ramByte a = some b) : busRead s a = .ok b s := by
  rcases busRead_cases s a with ⟨h', -⟩ | ⟨base, cell, h', e⟩ | ⟨d, h', hk, -⟩
  · simp [State.ramByte, h'] at h
  · simp only [State.ramByte, h', Device.offset, Option.some.injEq] at h
    rw [e, h]
  · obtain ⟨base, kind⟩ := d
    cases kind with
    | ram cell => exact absurd rfl hk
    | console size out => simp [State.ramByte, h'] at h
    | other size => simp [State.ramByte, h'] at h

theorem oneByteRam_contains (a x : Word) (b : Byte) : (oneByteRam a b).contains x = decide (x = a) := by
  rw [Bool.eq_iff_iff, Device.contains_iff, decide_eq_true_iff]
  simp only [oneByteRam, Device.size, ← BitVec.toNat_inj, BitVec.toNat_ofNat]
  omega

theorem oneByteRam_byte (a : Word) (b : Byte) : Memory.read (Memory.write [] 0 b) ((oneByteRam a b).offset a) = b := by
  have : (oneByteRam a b).offset a = 0 := Nat.sub_self _
  rw [this]
  exact Memory.read_write_same rfl 0 b

theorem oneByteRam_ok (a : Word) (b : Byte) : (oneByteRam a b).rangeOk = true ∧ (oneByteRam a b).wf = true := by
  refine ⟨?_, ?_⟩
  · have := a.isLt
    simp only [Device.rangeOk, oneByteRam, Device.size, BitVec.toNat_ofNat, decide_eq_true_eq]
    omega
  · refine MemoryCell.wf_iff.mpr ⟨Memory.wf_write rfl 0 b, fun x hx => ?_⟩
    rcases Memory.mem_write hx with rfl | hx
    · exact (by decide : 0 < (1#32).toNat)
    · cases hx

/-- The placed address shows the placed byte, every other address what it showed; accepted buses and canonical storage
stay so. -/
theorem placeByte_spec (s : State) (a : Word) (b : Byte) (hm : s.memoryOk = true) :
    State.ramByte { s with devices := placeByte s.devices a b } a = some b ∧
    (∀ x, x ≠ a → s.ramByte x ≠ none → State.ramByte { s with devices := placeByte s.devices a b } x = s.ramByte x) ∧
    State.memoryOk { s with devices := placeByte s.devices a b } = true ∧
    (s.busOk = true → State.busOk { s with devices := placeByte s.devices a b } = true) := by
  have added : ∀ earlier later : List Device, findDevice earlier a = none →
      (∀ x, x ≠ a → findDevice (earlier ++ oneByteRam a b :: later) x = findDevice (earlier ++ later) x) ∧
      findDevice (earlier ++ oneByteRam a b :: later) a = some (oneByteRam a b) := by
    intro earlier later he
    refine ⟨fun x hx => ?_, ?_⟩
    · simp [findDevice, List.find?_append, oneByteRam_contains, hx]
    · simp only [findDevice] at he
      simp [findDevice, List.find?_append, he, oneByteRam_contains]
  have shown : State.ramByte { s with devices := placeByte s.devices a b } a = some b ↔
      ∃ d cell, findDevice (placeByte s.devices a b) a = some d ∧ d.kind = .ram cell ∧
        cell.bytes.read (d.offset a) = b := by
    simp only [State.ramByte]
    constructor
    · intro h
      split at h
      · cases h
      · next d hf =>
        split at h
        · next cell hk => exact ⟨d, cell, hf, hk, Option.some.inj h⟩
        · cases h
        · cases h
    · rintro ⟨d, cell, hf, hk, hb⟩
      simp [hf, hk, hb]
  rw [shown]
  obtain ⟨okR, okM⟩ := oneByteRam_ok a b
  cases hf : findDevice s.devices a with
  | none =>
    have hp : placeByte s.devices a b = s.devices ++ [oneByteRam a b] := by simp [placeByte, hf]
    obtain ⟨h1, h2⟩ := added s.devices [] hf
    rw [hp]
    refine ⟨⟨_, _, h2, rfl, oneByteRam_byte a b⟩, fun x hx _ => ?_, ?_, fun hb => ?_⟩
    · simp only [State.ramByte, h1 x hx, List.append_nil]
    · simp only [State.memoryOk, List.all_append, Bool.and_eq_true]
      exact ⟨hm, by simp [okM]⟩
    · simp only [State.busOk, List.all_append, Bool.and_eq_true]
      exact ⟨hb, by simp [okR]⟩
  | some d =>
    have front : placeByte s.devices a b = oneByteRam a b :: s.devices →
        ((∃ d cell, findDevice (placeByte s.devices a b) a = some d ∧ d.kind = .ram cell ∧
          cell.bytes.read (d.offset a) = b) ∧
        (∀ x, x ≠ a → s.ramByte x ≠ none →
          State.ramByte { s with devices := placeByte s.devices a b } x = s.ramByte x) ∧
        State.memoryOk { s with devices := placeByte s.devices a b } = true ∧
        (s.busOk = true → State.busOk { s with devices := placeByte s.devices a b } = true)) := by
      intro hp
      obtain ⟨h1, h2⟩ := added [] s.devices rfl
      simp only [List.nil_append] at h1 h2
      rw [hp]
      refine ⟨⟨_, _, h2, rfl, oneByteRam_byte a b⟩, fun x hx _ => ?_, ?_, fun hb => ?_⟩
      · simp only [State.ramByte, h1 x hx]
      · simpa [State.memoryOk, okM] using hm
      · simpa [State.busOk, okR] using hb
    obtain ⟨base, kind⟩ := d
    cases kind with
    | console size out => exact front (by simp [placeByte, hf])
    | other size => exact front (by simp [placeByte, hf])
    | ram cell =>
      have hc := findDevice_contains hf
      have ho := (Device.contains_iff.mp hc).2
      have hw : Device.wf ⟨base, .ram cell⟩ = true := List.all_eq_true.mp hm _ (findDevice_mem hf)
      have hw' : cell.bytes.wf = true := (MemoryCell.wf_iff.mp hw).1
      generalize hd' : (⟨base, .ram { cell with bytes := cell.bytes.write (a.toNat - base.toNat) b }⟩ : Device) = d'
      have hp : placeByte s.devices a b = replaceFound s.devices a d' := by
        simp only [placeByte, hf, Device.offset, hd']
      have same : ∀ x, d'.contains x = Device.contains ⟨base, .ram cell⟩ x := fun x => by
        subst hd'
        exact Device.contains_congr rfl rfl x
      rw [hp]
      refine ⟨?_, fun x hx hr => ?_, ?_, fun hb => ?_⟩
      · obtain ⟨earlier, later, hs, -, he⟩ := findDevice_split hf
        refine ⟨d', { cell with bytes := cell.bytes.write (a.toNat - base.toNat) b }, ?_, by subst hd'; rfl, ?_⟩
        · rw [hs, replaceFound_append he hc]
          exact findDevice_append he ((same a).trans hc)
        · subst hd'
          exact Memory.read_write_same hw' _ b
      · rcases findDevice_replaceFound hf same x with e | ⟨e1, e2⟩
        · simp only [State.ramByte, e]
        · have hx2 := (Device.contains_iff.mp (findDevice_contains e1)).1
          have hx1 := (Device.contains_iff.mp hc).1
          simp only [State.ramByte, e1, e2]
          subst hd'
          simp only [Device.offset, Option.some.injEq]
          refine Memory.read_write_other fun e => hx (BitVec.eq_of_toNat_eq ?_)
          simp only at hx1 hx2
          omega
      · refine replaceFound_all hm ?_
        subst hd'
        exact MemoryCell.wf_setByte hw ho b
      · refine replaceFound_all hb ?_
        subst hd'
        exact (Device.rangeOk_congr (d := ⟨base, .ram cell⟩) rfl rfl).trans (List.all_eq_true.mp hb _ (findDevice_mem hf))

end Sys2Proof.Machine
end

