-- ==== Sys2Proof/Tests/Slice0.lean ====
section
/-! SUPPORT. Tests with results taken from spec/95_test_vectors.md and the rules, the WellFormed smoke test, and a witness for the hypotheses of every statement. -/

namespace Sys2Proof.Tests

open Sys2Proof.Machine

/-! ### WellFormed: one ill-formed term for each check, and the ends of each range -/

theorem test_wf_lui_too_wide : Instr.wf (.lui 1 0x100000) = false := by decide
theorem test_wf_lui_end : Instr.wf (.lui 1 0xFFFFF) = true := by decide
theorem test_wf_jal_too_far : Instr.wf (.jal 1 0x100000) = false := by decide
theorem test_wf_jal_odd : Instr.wf (.jal 1 3) = false := by decide
theorem test_wf_jal_ends : (Instr.wf (.jal 1 0xFFF00000) && Instr.wf (.jal 1 0xFFFFE)) = true := by decide
theorem test_wf_jalr_too_far : Instr.wf (.jalr 1 2 2048) = false := by decide
theorem test_wf_bne_too_far : Instr.wf (.bne 1 2 4096) = false := by decide
theorem test_wf_bne_odd : Instr.wf (.bne 1 2 1) = false := by decide
theorem test_wf_bne_ends : (Instr.wf (.bne 1 2 0xFFFFF000) && Instr.wf (.bne 1 2 4094)) = true := by decide
theorem test_wf_lb_too_far : Instr.wf (.lb 1 2 0xFFFFF7FF) = false := by decide
theorem test_wf_lbu_too_far : Instr.wf (.lbu 1 2 0xFFFFF7FF) = false := by decide
theorem test_wf_sb_too_far : Instr.wf (.sb 1 2 2048) = false := by decide
theorem test_wf_addi_too_far : Instr.wf (.addi 1 2 2048) = false := by decide
theorem test_wf_addi_ends : (Instr.wf (.addi 1 2 0xFFFFF800) && Instr.wf (.addi 1 2 2047)) = true := by decide

/-! ### Bit utilities: section 2.1 of the vectors -/

theorem test_mask : [0, 1, 12, 31, 32, 33].map mask = [0, 1, 0xFFF, 0x7FFFFFFF, 0xFFFFFFFF, 0xFFFFFFFF] := by decide
theorem test_bitsSlice : [bitsSlice 0xDEADBEEF 0 7, bitsSlice 0xDEADBEEF 15 20, bitsSlice 0xDEADBEEF 20 32,
    bitsSlice 0xDEADBEEF 32 32, bitsSlice 0xDEADBEEF 8 4, bitsSlice 0xDEADBEEF 0 33] =
    [0x6F, 0x1B, 0xDEA, 0, 0, 0] := by decide
theorem test_signExtend : [signExtend 0x7FF 12, signExtend 0x800 12, signExtend 0x1800 12, signExtend 0xCD 8,
    signExtend 1 1, signExtend 0x40000000 31, signExtend 0x80000000 32] =
    [0x7FF, 0xFFFFF800, 0xFFFFF800, 0xFFFFFFCD, 0xFFFFFFFF, 0xC0000000, 0x80000000] := by decide

/-! ### Decoding: words written out bit by bit from R64 to R68 and R73, and the encoder on the same instructions -/

/-- imm = -2048, rs1 = 2, funct3 000, rd = 1. -/
theorem test_decode_addi : decode 0b100000000000_00010_000_00001_0010011 = .ok (.addi 1 2 0xFFFFF800) := by decide
/-- imm20 = 0x12345, rd = 5. -/
theorem test_decode_lui : decode 0b00010010001101000101_00101_0110111 = .ok (.lui 5 0x12345) := by decide
/-- Only w[20] of the offset: imm[11], 2048; rd = 1. -/
theorem test_decode_jal_imm11 : decode 0b0_0000000000_1_00000000_00001_1101111 = .ok (.jal 1 2048) := by decide
/-- Offset -4, rd = 0. -/
theorem test_decode_jal_negative : decode 0b1_1111111110_1_11111111_00000_1101111 = .ok (.jal 0 0xFFFFFFFC) := by decide
/-- imm = -3, rs1 = rd = 5. -/
theorem test_decode_jalr : decode 0b111111111101_00101_000_00101_1100111 = .ok (.jalr 5 5 0xFFFFFFFD) := by decide
/-- Only w[7] of the offset: imm[11], 2048; rs1 = 1, rs2 = 2 (conflict C7). -/
theorem test_decode_bne_imm11 : decode 0b0_000000_00010_00001_001_0000_1_1100011 = .ok (.bne 1 2 2048) := by decide
/-- Offset 4094: every offset bit but the sign. -/
theorem test_decode_bne_end : decode 0b0_111111_00010_00001_001_1111_1_1100011 = .ok (.bne 1 2 4094) := by decide
/-- imm = -1, rs1 = rd = 5. -/
theorem test_decode_lb : decode 0b111111111111_00101_000_00101_0000011 = .ok (.lb 5 5 0xFFFFFFFF) := by decide
/-- imm = 2047, rs1 = 6, rd = 11. -/
theorem test_decode_lbu : decode 0b011111111111_00110_100_01011_0000011 = .ok (.lbu 11 6 2047) := by decide
/-- imm = 5, in the low field; rs1 = rs2 = 5. -/
theorem test_decode_sb : decode 0b0000000_00101_00101_000_00101_0100011 = .ok (.sb 5 5 5) := by decide
/-- Section 2.3: opcode 0x67 with funct3 001 (D8), and ECALL, FENCE, LW of section 2.9. -/
theorem test_decode_unsupported : [decode 0x000310E7, decode 0x00000073, decode 0x0FF0000F, decode 0x0002A503] =
    [.error (.unsupportedInstruction 0x000310E7), .error (.unsupportedInstruction 0x00000073),
     .error (.unsupportedInstruction 0x0FF0000F), .error (.unsupportedInstruction 0x0002A503)] := by decide
theorem test_decode_bytes : decodeBytes [0x13, 0x05, 0x00, 0x00, 0x67] = .ok (.addi 10 0 0, [0x67]) := by decide
theorem test_decode_too_few_bytes : decodeBytes [0x13, 0x05, 0x00] = .error (.tooFewBytes 3) := by decide
theorem test_encode : [encode (.addi 1 2 2047), encode (.jal 1 0xFFFFFF00), encode (.bne 5 0 0xFFFFFFFC),
    encode (.sb 5 6 0xFFFFFFFF), encode (.lui 6 0xFFFFF)] =
    [0x7FF10093, 0xF01FF0EF, 0xFE029EE3, 0xFE628FA3, 0xFFFFF337] := by decide

/-! ### One step on a small machine: configuration T1 of the vectors, the word at pc -/

/-- Configuration T1, the third device's storage given. -/
def t1 (high : Memory) : List Device :=
  [Device.newRam 0 0x1000, Device.newConsole 0x10000000 0x10, ⟨0x80000000, .ram ⟨0x100, high⟩⟩]

/-- T1 at pc, the registers given, the word stored where the step fetches it. -/
def machine (pc : Word) (regs : List (RegIdx × Word)) (high : Memory) (w : Nat) : State :=
  (regs.foldl (fun (s : State) r => s.setReg r.1 r.2) { State.reset with pc := pc, devices := t1 high }).withFetchWord 32 w

/-- The state a step goes on with. -/
def after (s : State) : Option State :=
  match step s with
  | .next t => some t
  | .fault _ => none
  | .refused _ => none

/-- The failure of a failed step, with the pc and the latch it leaves. -/
def failed (s : State) : Option (Failure × Word × Option Failure) :=
  match step s with
  | .next _ => none
  | .fault (.stepFailed f t) => some (f, t.pc, t.failure)
  | .fault (.halted _) => none
  | .refused _ => none

theorem test_addi_wraps : (after (machine 0x100 [(2, 0xFFFFFFFF)] [] 0x00110093)).map
    (fun t => (t.reg 1, t.reg 2, t.pc)) = some (0, 0xFFFFFFFF, 0x104) := by decide
theorem test_addi_writes_register_zero : (after (machine 0x100 [] [] 0x00500013)).map (fun t => t.reg 0) = some 5 := by
  decide
theorem test_lui : (after (machine 0x100 [] [] 0x123452B7)).map (fun t => (t.reg 5, t.pc)) =
    some (0x12345000, 0x104) := by decide
theorem test_lui_funct3_bits_are_immediate : (after (machine 0x100 [] [] 0x000074B7)).map (fun t => t.reg 9) =
    some 0x7000 := by decide
theorem test_jal_negative : (after (machine 0x10 [] [] 0xFFDFF06F)).map (fun t => (t.reg 0, t.pc)) =
    some (0x14, 0x0C) := by decide
theorem test_jal_wraps : (after (machine 0x10 [] [] 0xF01FF0EF)).map (fun t => (t.reg 1, t.pc)) =
    some (0x14, 0xFFFFFF10) := by decide
/-- Scenario 2. -/
theorem test_jalr_register_zero : (after (machine 0x40 [] [] 0x00008067)).map (fun t => (t.reg 0, t.pc)) =
    some (0x44, 0) := by decide
theorem test_jalr_rd_is_rs1 : (after (machine 0x200 [(5, 0x108)] [] 0xFFD282E7)).map (fun t => (t.reg 5, t.pc)) =
    some (0x204, 0x104) := by decide
theorem test_bne_taken : (after (machine 0x20 [(5, 1), (6, 2)] [] 0x00629463)).map (fun t => t.pc) = some 0x28 := by
  decide
theorem test_bne_not_taken : (after (machine 0x20 [(5, 7), (6, 7)] [] 0x00629463)).map (fun t => t.pc) = some 0x24 := by
  decide
theorem test_lb_sign_extends : (after (machine 0x100 [(5, 0x80000011)] [(0x10, 0x90)] 0xFFF28283)).map
    (fun t => (t.reg 5, t.pc)) = some (0xFFFFFF90, 0x104) := by decide
theorem test_lb_unmapped : failed (machine 0x100 [(5, 0x80000100), (10, 0x11111111)] [] 0x00028503) =
    some (⟨.noDeviceAtAddress 0x80000100, .load⟩, 0x100, some ⟨.noDeviceAtAddress 0x80000100, .load⟩) := by decide
theorem test_lbu_zero_extends : (after (machine 0x100 [(5, 0x80000010)] [(0x10, 0xCD)] 0x0002C503)).map
    (fun t => t.reg 10) = some 0xCD := by decide
theorem test_lbu_address_wraps : (after (machine 0x100 [(5, 0xFFFFFFFF)] [] 0x1012C503)).map
    (fun t => t.reg 10) = some 0x03 := by decide
theorem test_sb_low_byte : (after (machine 0x100 [(5, 0x80000020), (6, 0x123456CD)] [] 0x00628023)).map
    (fun t => ([0x8000001F, 0x80000020, 0x80000021].map t.ramByte, t.pc)) =
    some ([some 0, some 0xCD, some 0], 0x104) := by decide
theorem test_sb_console : (after (machine 0x100 [(5, 0x1000000F), (6, 0x141)] [] 0x00628023)).map
    (fun t => t.devices.map Device.consoleOut) = some [[], [0x41], []] := by decide

/-- Scenario 4. -/
theorem test_unsupported_word : failed (machine 0x100 [(1, 0x99)] [] 0xFFFFFFFF) =
    some (⟨.unsupportedInstruction 0xFFFFFFFF, .dispatch⟩, 0x100, some ⟨.unsupportedInstruction 0xFFFFFFFF, .dispatch⟩) := by
  decide
/-- Scenario 5, and the partly mapped fetch at 0xFFE of section 2.8. -/
theorem test_fetch_unmapped : failed { State.reset with pc := 0x2000, devices := t1 [] } =
    some (⟨.noDeviceAtAddress 0x2000, .fetch⟩, 0x2000, some ⟨.noDeviceAtAddress 0x2000, .fetch⟩) := by decide
theorem test_fetch_partly_mapped : failed { State.reset with pc := 0xFFE, devices := t1 [] } =
    some (⟨.noDeviceAtAddress 0x1000, .fetch⟩, 0xFFE, some ⟨.noDeviceAtAddress 0x1000, .fetch⟩) := by decide
/-- The fetch that straddles the top of the address space (section 2.4): RAM at 0xFFFFFF00 and RAM at 0. -/
theorem test_fetch_wraps : (after ((State.setReg { State.reset with
      pc := 0xFFFFFFFE, devices := [Device.newRam 0xFFFFFF00 0x100, Device.newRam 0 0x100] } 4 5).withFetchWord 32
      0x00720193)).map (fun t => (t.reg 3, t.pc, t.devices.length)) = some (0xC, 2, 2) := by decide
theorem test_halted_takes_no_step : step { State.reset with failure := some ⟨.noDeviceAtAddress 0, .fetch⟩ } =
    .fault (.halted ⟨.noDeviceAtAddress 0, .fetch⟩) := rfl
theorem test_wrapping_range_refused : step (State.reset.addDevice (Device.newRam 0xFFFFFFFF 2)) =
    .refused (.deviceRangeWraps 0xFFFFFFFF 2) := rfl
/-- Configuration T2 of section 2.8: overlapping devices. -/
theorem test_first_match : [0xFFF, 0x1080, 0x10FF, 0x1100, 0x3000].map (fun a => (findDevice
      [⟨0x1000, .ram ⟨0x100, [(0, 0xAA)]⟩⟩, ⟨0x1080, .ram ⟨0x100, [(0, 0xBB)]⟩⟩, ⟨0x3000, .ram ⟨0, []⟩⟩] a).map
      (fun d => d.base)) = [none, some 0x1000, some 0x1000, some 0x1080, none] := by decide
/-- Direct host calls outside a device's range (section 2.8). -/
theorem test_device_out_of_range : ((Device.newRam 0x1080 0x100).read 0x107F 0).1 =
    .error (.deviceAddressOutOfRange 0x107F) := by decide
/-- R130: the bring-up of scenario 1. -/
theorem test_boot : (match boot (t1 []) [(0, 0x13), (1, 0x05)] 0 with
    | .ok _ s => (after s).map (fun t => (t.reg 10, t.pc))
    | .fail _ _ => none) = some (0, 4) := by decide
/-- From reset, with no device, a placed word of each row runs as the first instruction. -/
theorem test_placed_words_run_after_reset :
    [0x37, 0x6F, 0x67, 0x1063, 0x03, 0x4003, 0x23, 0x13].map (fun w =>
      (after (State.reset.withFetchWord 32 w)).map (fun t => t.pc)) =
    [some 4, some 0, some 0, some 4, some 4, some 4, some 4, some 4] := by decide
theorem test_decodeTableWord : decodeTableWord 32 0x00513 = some (.addi 10 0 0) := by decide

/-! ### Witnesses: for each statement with hypotheses, states and operands that meet them, clause by clause -/

/-- T1 with a device of another kind after it, at pc 0x100: x[5] in RAM, x[6] in the console, x[7] in the other device,
x[8] mapped by nothing. -/
def w0 : State where
  regs := (Vector.replicate 32 0#32 |>.set 5 0x80000020#32 |>.set 6 0x1000000F#32 |>.set 7 0x20000000#32
    |>.set 8 0x1000#32)
  pc := 0x100
  failure := none
  devices := [Device.newRam 0 0x1000, Device.newConsole 0x10000000 0x10, ⟨0x80000000, .ram ⟨0x100, [(0x20, 0xCD)]⟩⟩,
    ⟨0x20000000, .other 4⟩]
  draws := 7

/-- A word as the instruction at pc of `w0`. -/
def at0 (w : Nat) : State := w0.withFetchWord 32 w

/-- The state an instruction goes on with. -/
def execAfter (i : Instr) (s : State) : Option State :=
  match exec i s with
  | .next t => some t
  | .fault _ => none
  | .refused _ => none

theorem next_of_after {s : State} (h : (after s).isSome = true) : ∃ t, step s = .next t := by
  unfold after at h
  cases hs : step s <;> simp_all

theorem next_with {s : State} {p : State → Bool} (h : (after s).any p = true) : ∃ t, step s = .next t ∧ p t = true := by
  unfold after at h
  cases hs : step s <;> simp_all

theorem exec_with {i : Instr} {s : State} {p : State → Bool} (h : (execAfter i s).any p = true) :
    ∃ t, exec i s = .next t ∧ p t = true := by
  unfold execAfter at h
  cases hs : exec i s <;> simp_all

theorem fault_of_failed {s : State} {f : Failure} (h : (failed s).map (fun x => x.1) = some f) :
    ∃ t, step s = .fault (.stepFailed f t) := by
  unfold failed at h
  split at h <;> simp_all

/-- The word a fetch gives. -/
def fetched (s : State) : Option Word :=
  match fetch s with
  | .ok w _ => some w
  | .fail _ _ => none

theorem fetch_of_fetched {s : State} {w : Word} (h : fetched s = some w) : ∃ s1, fetch s = .ok w s1 := by
  unfold fetched at h
  split at h <;> simp_all

theorem witness_MaskHasLowBitsSet : (0 ≤ 31 ∧ (mask 0).toNat = 0) ∧ (31 ≤ 31 ∧ (mask 31).toNat = 2147483647) ∧
    (32 ≤ 32 ∧ mask 32 = 0xFFFFFFFF#32) := by decide
theorem witness_BitsSliceIsRightJustified : ((32 : Nat) ≤ 32 ∧ bitsSlice 0xDEADBEEF 32 32 = 0#32) ∧
    (0 ≤ 32 ∧ 32 ≤ 32 ∧ bitsSlice 0xDEADBEEF 0 32 = 0xDEADBEEF#32) ∧ (4 < 8 ∨ 32 < 4) ∧ (33 < 0 ∨ 32 < 33) := by decide
theorem witness_SignExtendFillsFromTopBit : (0 < 1 ∧ 1 ≤ 31 ∧ signExtend 1 1 = 0xFFFFFFFF#32) ∧
    (0 < 31 ∧ 31 ≤ 31 ∧ signExtend 0x3FFFFFFF 31 = 0x3FFFFFFF#32) ∧
    (0 < 32 ∧ 32 ≤ 32 ∧ signExtend 0x80000000 32 = 0x80000000#32) := by decide
theorem witness_MatchingWordsSelectTheirRow :
    0xFFFFFFB7#32 &&& 0x0000007F#32 = 0x00000037#32 ∧ 0xFFFFFFEF#32 &&& 0x0000007F#32 = 0x0000006F#32 ∧
    0xFFFF8FE7#32 &&& 0x0000707F#32 = 0x00000067#32 ∧ 0xFFFF9FE3#32 &&& 0x0000707F#32 = 0x00001063#32 ∧
    0xFFFF8F83#32 &&& 0x0000707F#32 = 0x00000003#32 ∧ 0xFFFFCF83#32 &&& 0x0000707F#32 = 0x00004003#32 ∧
    0xFFFF8FA3#32 &&& 0x0000707F#32 = 0x00000023#32 ∧ 0xFFFF8F93#32 &&& 0x0000707F#32 = 0x00000013#32 := by decide
/-- One word of each line of the list, and a step that fetches one. -/
theorem witness_UnsupportedWordsAreExactlyTheList :
    ([0x00000000, 0x00001003, 0x00007013, 0x00001023, 0x00000063, 0x00007067] : List Word).all
      (fun w => decide (decode w = .error (.unsupportedInstruction w))) = true ∧
    (at0 0x7067).busOk = true ∧ (at0 0x7067).failure = none ∧ ∃ s1, fetch (at0 0x7067) = .ok 0x7067#32 s1 :=
  ⟨by decide, by decide, rfl, fetch_of_fetched (by decide)⟩
theorem witness_DecodeOfEncodeIsTheInstruction :
    [Instr.lui 31 0xFFFFF, .jal 0 0xFFF00000, .jalr 31 31 2047, .bne 31 0 0xFFFFF000, .lb 0 31 0xFFFFF800,
      .lbu 31 0 0, .sb 31 31 2047, .addi 0 0 0].all Instr.wf = true := by decide
theorem witness_EncodeOfDecodeIsTheWord : decode 0xFE628FA3#32 = .ok (.sb 5 6 0xFFFFFFFF#32) := by decide

/-- One word for the first clause of each instruction's rule. -/
theorem witness_instruction_words :
    0x80010093#32 &&& 0x0000707F#32 = 0x00000013#32 ∧ 0x123452B7#32 &&& 0x0000007F#32 = 0x00000037#32 ∧
    0xFFDFF06F#32 &&& 0x0000007F#32 = 0x0000006F#32 ∧ 0x00008067#32 &&& 0x0000707F#32 = 0x00000067#32 ∧
    0x7E209FE3#32 &&& 0x0000707F#32 = 0x00001063#32 ∧ 0xFFF28283#32 &&& 0x0000707F#32 = 0x00000003#32 ∧
    0x7FF34583#32 &&& 0x0000707F#32 = 0x00004003#32 ∧ 0xFE628FA3#32 &&& 0x0000707F#32 = 0x00000023#32 := by decide
theorem witness_AddiAddsTheImmediate : 0x80010093#32 &&& 0x0000707F#32 = 0x00000013#32 ∧ (1 : RegIdx) ≠ 0 := by decide
theorem witness_LuiLoadsTheUpperBits : 0x123452B7#32 &&& 0x0000007F#32 = 0x00000037#32 ∧ (1 : RegIdx) ≠ 0 := by decide
theorem witness_JalLinksAndJumps : 0xFFDFF06F#32 &&& 0x0000007F#32 = 0x0000006F#32 ∧ (1 : RegIdx) ≠ 0 := by decide
theorem witness_JalrLinksAndJumpsToRegister :
    0x00008067#32 &&& 0x0000707F#32 = 0x00000067#32 ∧ 0 < 1 ∧ (1 : RegIdx) ≠ 0 := by decide
theorem witness_BneBranchesWhenRegistersDiffer : 0x7E209FE3#32 &&& 0x0000707F#32 = 0x00001063#32 ∧
    w0.reg 5 ≠ w0.reg 6 ∧ w0.reg 1 = w0.reg 2 := by decide
/-- A byte with its top bit set, and an address that no device holds. -/
theorem witness_LbLoadsTheSignExtendedByte : 0xFFF28283#32 &&& 0x0000707F#32 = 0x00000003#32 ∧
    busRead w0 (w0.reg 5 + 0) = .ok 0xCD#8 w0 ∧
    busRead w0 (w0.reg 8 + 0) = .fail (.noDeviceAtAddress 0x1000) w0 := by decide
theorem witness_LbuLoadsTheZeroExtendedByte : 0x7FF34583#32 &&& 0x0000707F#32 = 0x00004003#32 ∧
    busRead w0 (w0.reg 5 + 0) = .ok 0xCD#8 w0 ∧
    busRead w0 (w0.reg 8 + 0) = .fail (.noDeviceAtAddress 0x1000) w0 := by decide
theorem witness_SbStoresTheLowByte : 0xFE628FA3#32 &&& 0x0000707F#32 = 0x00000023#32 ∧
    (∃ s1, busWrite w0 (w0.reg 5 + 0) ((w0.reg 6).extractLsb' 0 8) = .ok () s1) ∧
    busWrite w0 (w0.reg 8 + 0) ((w0.reg 6).extractLsb' 0 8) = .fail (.noDeviceAtAddress 0x1000) w0 :=
  ⟨by decide, ⟨_, rfl⟩, by decide⟩
theorem witness_LoadsFromRamComplete :
    findDevice w0.devices (w0.reg 5 + 0) = some ⟨0x80000000, .ram ⟨0x100, [(0x20, 0xCD)]⟩⟩ := by decide
/-- The console's and the other device's answers, whatever they are. -/
theorem witness_LoadsFromOpenDevicesFollowTheFreeAnswer :
    (∃ d answer, findDevice w0.devices (w0.reg 6 + 0) = some d ∧ (∃ size out, d.kind = .console size out) ∧
      answer = Config.consoleRead w0.draws (w0.reg 6 + 0)) ∧
    (∃ d answer, findDevice w0.devices (w0.reg 7 + 3) = some d ∧ (∃ size, d.kind = .other size) ∧
      answer = Config.otherRead w0.draws (w0.reg 7 + 3)) :=
  ⟨⟨Device.newConsole 0x10000000 0x10, _, by decide, ⟨_, _, rfl⟩, rfl⟩,
    ⟨⟨0x20000000, .other 4⟩, _, by decide, ⟨_, rfl⟩, rfl⟩⟩
/-- The console, after the RAM that does not hold its address; and the RAM itself, first. -/
theorem witness_StoresToRamAndConsoleComplete :
    (w0.devices = [Device.newRam 0 0x1000] ++ Device.newConsole 0x10000000 0x10 :: w0.devices.drop 2 ∧
      (Device.newConsole 0x10000000 0x10).contains (w0.reg 6 + 0) = true ∧
      [Device.newRam 0 0x1000].all (fun e => !e.contains (w0.reg 6 + 0)) = true ∧
      (Device.newConsole 0x10000000 0x10).kind = .console 0x10 []) ∧
    (w0.devices = [] ++ Device.newRam 0 0x1000 :: w0.devices.drop 1 ∧
      (Device.newRam 0 0x1000).contains (w0.reg 8 + 0xFFFFFFFF) = true ∧
      (Device.newRam 0 0x1000).kind = .ram ⟨0x1000, []⟩) := by decide
theorem witness_StoresToOtherDevicesFollowTheFreeAnswer :
    findDevice w0.devices (w0.reg 7 + 3) = some ⟨0x20000000, .other 4⟩ ∧
    ∃ accepted, accepted = Config.otherWriteOk w0.draws (w0.reg 7 + 3) ((w0.reg 6).extractLsb' 0 8) :=
  ⟨by decide, _, rfl⟩
/-- One past the end of the RAM at 0. -/
theorem witness_UnmappedLoadsAndStoresFail : ∀ d ∈ w0.devices, ¬ (d.base.toNat ≤ (w0.reg 8 + 0).toNat ∧
    (w0.reg 8 + 0).toNat - d.base.toNat < d.size.toNat) := by decide
theorem witness_RegisterAndBranchInstructionsFrame :
    ([.addi 5 5 1, .lui 0 1, .jal 1 8, .jalr 5 5 0, .bne 5 6 8] : List Instr).all (fun i =>
      decide (i.op ∈ [Op.addi, Op.lui, Op.jal, Op.jalr, Op.bne]) && (execAfter i w0).isSome) = true := by decide
theorem witness_LoadsFrame : ([.lb 5 5 0, .lbu 0 5 0] : List Instr).all (fun i =>
    decide (i.op ∈ [Op.lb, Op.lbu]) && (execAfter i w0).isSome) = true := by decide
/-- A store to RAM, another bus address, the stored one, another device and another offset. -/
theorem witness_StoreFrame : (∃ t, exec (.sb 5 6 0) w0 = .next t ∧ decide (t.ramByte 0x80000020 = some 0x0F) = true) ∧
    (0x80000021 : Word) ≠ w0.reg 5 + 0 ∧ w0.memoryOk = true ∧ w0.ramByte (w0.reg 5 + 0) ≠ none ∧
    w0.devices[2]? = some ⟨0x80000000, .ram ⟨0x100, [(0x20, 0xCD)]⟩⟩ ∧
    w0.devices.findIdx? (fun e => e.contains (w0.reg 5 + 0)) ≠ some 3 ∧
    0x21 ≠ (Device.offset ⟨0x80000000, .ram ⟨0x100, [(0x20, 0xCD)]⟩⟩ (w0.reg 5 + 0)) :=
  ⟨exec_with (by decide), by decide, by decide, by decide, by decide, by decide, by decide⟩
/-- The last offset of a cell, and its capacity. -/
theorem witness_MemoryCellReadsBackWrites : (MemoryCell.wf ⟨0x100, [(0x20, 0xCD), (0xFF, 1)]⟩) = true ∧
    0xFF < (0x100 : Word).toNat ∧ (0x100 : Word).toNat ≤ 0x100 ∧ 0xFE ≠ 0xFF := by decide
/-- One below the base, one past the end, and a device of size 0. -/
theorem witness_DevicesCheckTheirOwnRange :
    ([(Device.newRam 0x1080 0x100, 0x107F), (Device.newRam 0x1080 0x100, 0x1180), (Device.newRam 0x3000 0, 0x3000)] :
      List (Device × Word)).all (fun x => decide (¬ (x.1.base.toNat ≤ x.2.toNat ∧
        x.2.toNat - x.1.base.toNat < x.1.size.toNat))) = true := by decide
theorem witness_UnmappedAccessIsNeverDefaulted :
    (∀ d ∈ w0.devices, ¬ (d.base.toNat ≤ (0x1000 : Word).toNat ∧ (0x1000 : Word).toNat - d.base.toNat < d.size.toNat)) ∧
    (∀ d ∈ State.reset.devices, ¬ (d.base.toNat ≤ 0 ∧ 0 - d.base.toNat < d.size.toNat)) := by decide
theorem witness_RamReadReturnsLastWrite : w0.memoryOk = true ∧ w0.ramByte 0xFFF ≠ none ∧ (0xFFE : Word) ≠ 0xFFF := by
  decide
theorem witness_FetchIsLittleEndian : (at0 0x123452B7).ramByte 0x100 = some 0xB7 ∧
    (at0 0x123452B7).ramByte (0x100 + 1#32) = some 0x52 ∧ (at0 0x123452B7).ramByte (0x100 + 2#32) = some 0x34 ∧
    (at0 0x123452B7).ramByte (0x100 + 3#32) = some 0x12 := by decide
/-- The first byte unmapped (k = 0), and only the last (k = 3). -/
theorem witness_FetchFailsAtTheFirstUnmappedByte : w0.busOk = true ∧ w0.failure = none ∧
    findDevice (w0.setPc 0x1000).devices ((w0.setPc 0x1000).pc + BitVec.ofNat 32 0) = none ∧
    (∀ j, j < 3 → (w0.setPc 0xFFD).ramByte ((w0.setPc 0xFFD).pc + BitVec.ofNat 32 j) ≠ none) ∧
    findDevice (w0.setPc 0xFFD).devices ((w0.setPc 0xFFD).pc + BitVec.ofNat 32 3) = none := by decide
theorem witness_StepRunsTheDecodedInstruction : (at0 0x123452B7).busOk = true ∧ (at0 0x123452B7).failure = none ∧
    (∃ s1, fetch (at0 0x123452B7) = .ok 0x123452B7#32 s1) ∧
    (∀ k, k < 4 → (at0 0x123452B7).ramByte ((at0 0x123452B7).pc + BitVec.ofNat 32 k) =
      some ((0x123452B7#32).extractLsb' (8 * k) 8)) ∧
    decode 0x123452B7#32 = .ok (.lui 5 0x12345) :=
  ⟨by decide, rfl, fetch_of_fetched (by decide), by decide, by decide⟩
/-- A store to the first (k = 0) and to the last (k = 3) byte of the next instruction. -/
theorem witness_StoreIsSeenByTheNextFetch : w0.memoryOk = true ∧ w0.ramByte (w0.reg 1 + 0x104) ≠ none ∧
    (∃ t, exec (.sb 1 6 0x104) w0 = .next t ∧ (decide (w0.reg 1 + 0x104 = t.pc + BitVec.ofNat 32 0) &&
      decide (fetched t = some 0x0000000F)) = true) ∧
    w0.ramByte (w0.reg 1 + 0x107) ≠ none ∧
    (∃ t, exec (.sb 1 6 0x107) w0 = .next t ∧ (decide (w0.reg 1 + 0x107 = t.pc + BitVec.ofNat 32 3) &&
      decide (fetched t = some 0x0F000000)) = true) :=
  ⟨by decide, by decide, exec_with (by decide), by decide, exec_with (by decide)⟩

/-- A step that goes on, for one word of each row: LUI, JAL, JALR, BNE taken, BNE not taken, LB, LBU, SB, ADDI. -/
theorem witness_steps_go_on : [0x123452B7, 0x008000EF, 0x000280E7, 0x00629463, 0x00209463, 0x00028503, 0x0002C503,
    0x00628023, 0x00110093].all (fun w => (after (at0 w)).isSome) = true := by decide
/-- A step that fails in each of the four phases. -/
theorem witness_steps_fail :
    (failed (w0.setPc 0x1000)).map (fun x => x.1) = some ⟨.noDeviceAtAddress 0x1000, .fetch⟩ ∧
    (failed (at0 0x00000000)).map (fun x => x.1) = some ⟨.unsupportedInstruction 0, .dispatch⟩ ∧
    (failed (at0 0x00040503)).map (fun x => x.1) = some ⟨.noDeviceAtAddress 0x1000, .load⟩ ∧
    (failed (at0 0x00640023)).map (fun x => x.1) = some ⟨.noDeviceAtAddress 0x1000, .store⟩ := by decide
theorem witness_NextPcByInstruction : (∃ t, step (at0 0x00629463) = .next t) ∧
    ∃ t, step (at0 0x00040503) = .fault (.stepFailed ⟨.noDeviceAtAddress 0x1000, .load⟩ t) :=
  ⟨next_of_after (by decide), fault_of_failed (by decide)⟩
theorem witness_HaltedCoreTakesNoStep : (w0.halt ⟨.noDeviceAtAddress 0, .fetch⟩).busOk = true ∧
    (w0.halt ⟨.noDeviceAtAddress 0, .fetch⟩).failure = some ⟨.noDeviceAtAddress 0, .fetch⟩ := by decide
theorem witness_FailedStepChangesNothing :
    ∃ t, step (at0 0x00640023) = .fault (.stepFailed ⟨.noDeviceAtAddress 0x1000, .store⟩ t) :=
  fault_of_failed (by decide)
theorem witness_OnlyAFailedStepHalts :
    (∃ t, step (at0 0) = .fault (.stepFailed ⟨.unsupportedInstruction 0, .dispatch⟩ t)) ∧
    ∃ t, step (at0 0x00628023) = .next t :=
  ⟨fault_of_failed (by decide), next_of_after (by decide)⟩
theorem witness_StepNeverRaisesHostOnlyFailures :
    ∃ t, step (at0 0x00040503) = .fault (.stepFailed ⟨.noDeviceAtAddress 0x1000, .load⟩ t) :=
  fault_of_failed (by decide)
theorem witness_FailuresByPhase :
    (∃ t, step (w0.setPc 0x1000) = .fault (.stepFailed ⟨.noDeviceAtAddress 0x1000, .fetch⟩ t)) ∧
    (∃ t, step (at0 0) = .fault (.stepFailed ⟨.unsupportedInstruction 0, .dispatch⟩ t)) ∧
    (∃ t, step (at0 0x00040503) = .fault (.stepFailed ⟨.noDeviceAtAddress 0x1000, .load⟩ t)) ∧
    (∃ t, step (at0 0x00640023) = .fault (.stepFailed ⟨.noDeviceAtAddress 0x1000, .store⟩ t)) :=
  ⟨fault_of_failed (by decide), fault_of_failed (by decide), fault_of_failed (by decide), fault_of_failed (by decide)⟩
/-- A range that ends at 2^32 exactly is accepted, one that ends one byte past it is not. -/
theorem witness_WrappingRangesAreRefused :
    (∀ e ∈ [Device.newRam 0xFFFFFF00 0x100], e.base.toNat + e.size.toNat ≤ 2 ^ 32) ∧
    2 ^ 32 < (Device.newRam 0xFFFFFF00 0x101).base.toNat + (Device.newRam 0xFFFFFF00 0x101).size.toNat := by decide
theorem witness_StepKeepsStorageCanonical : (at0 0x00628023).memoryOk = true ∧ ∃ t, step (at0 0x00628023) = .next t :=
  ⟨by decide, next_of_after (by decide)⟩
theorem witness_EvenPcStaysEven : (at0 0x000280E7).pc.getLsbD 0 = false ∧ ∃ t, step (at0 0x000280E7) = .next t :=
  ⟨by decide, next_of_after (by decide)⟩
theorem witness_BusConfigurationIsConstant : (∃ t, step (at0 0x00628023) = .next t) ∧
    ∃ t, step (at0 0x00640023) = .fault (.stepFailed ⟨.noDeviceAtAddress 0x1000, .store⟩ t) :=
  ⟨next_of_after (by decide), fault_of_failed (by decide)⟩
theorem witness_OnlySbChangesDevices :
    ∃ t, step (at0 0x00628023) = .next t ∧ decide (t.devices ≠ (at0 0x00628023).devices) = true :=
  next_with (by decide)
theorem witness_OnlyTheNamedRegisterChanges :
    (∃ t, step (at0 0x00110013) = .next t ∧ decide (t.reg 0 ≠ (at0 0x00110013).reg 0) = true) ∧
    ∃ t, step (at0 0x00629463) = .next t :=
  ⟨next_with (by decide), next_of_after (by decide)⟩
/-- SB x5 to the console: its output grows by the low byte of x5. -/
theorem witness_ConsoleOutputOnlyGrows :
    (∃ t, step (at0 0x00530023) = .next t ∧
      decide (t.devices.map Device.consoleOut = [[], [0x20], [], []]) = true) ∧
    (at0 0x00530023).devices[1]? = some (Device.newConsole 0x10000000 0x10) :=
  ⟨next_with (by decide), by decide⟩
theorem witness_RamOnlyStepDrawsNothing :
    (∀ d ∈ (State.reset.withFetchWord 32 0x13).devices, d.kindName = .ram) ∧
    ∃ t, step (State.reset.withFetchWord 32 0x13) = .next t :=
  ⟨by decide, next_of_after (by decide)⟩
theorem witness_BootPreparesTheRun : ∃ s, boot (t1 []) [(0, 0x13), (0x8000000F, 0x05)] 0x100 = .ok () s := ⟨_, rfl⟩
theorem witness_PlacedWordRunsNext : 0x123452B7 < 2 ^ 32 ∧ w0.memoryOk = true ∧ w0.busOk = true ∧
    decode (BitVec.ofNat 32 0x123452B7) = .ok (.lui 5 0x12345) ∧ State.reset.memoryOk = true := by decide

end Sys2Proof.Tests
end

section
/-! PROOFS, family 10_state: what an instruction that goes on and a step that fails leave, said once; then the
statements about registers, the pc, the latch and the bus configuration. -/

namespace Sys2Proof.Machine

/-! ### The one form of every instruction that goes on -/

/-- The register write that ends an instruction: into its destination, if its format has one (R27). -/
def State.writeDest (s : State) (dest : Option RegIdx) (v : Word) : State :=
  match dest with
  | some rd => s.setReg rd v
  | none => s

section
variable (s : State) (dest : Option RegIdx) (v : Word)

@[simp] theorem State.writeDest_none : s.writeDest none v = s := rfl
@[simp] theorem State.writeDest_failure : (s.writeDest dest v).failure = s.failure := by cases dest <;> rfl
@[simp] theorem State.writeDest_devices : (s.writeDest dest v).devices = s.devices := by cases dest <;> rfl
@[simp] theorem State.writeDest_draws : (s.writeDest dest v).draws = s.draws := by cases dest <;> rfl

theorem State.reg_writeDest_other {r : RegIdx} (h : dest ≠ some r) : (s.writeDest dest v).reg r = s.reg r := by
  cases dest with
  | none => rfl
  | some rd => exact State.reg_setReg_other s rd v fun e => h (congrArg some e.symm)

end

/-- The pc an instruction goes on to (R18). -/
def nextPc (s : State) : Instr → Word
  | .addi _ _ _ => s.pc + 4#32
  | .lui _ _ => s.pc + 4#32
  | .lb _ _ _ => s.pc + 4#32
  | .lbu _ _ _ => s.pc + 4#32
  | .sb _ _ _ => s.pc + 4#32
  | .jal _ imm => pcPlusImm s imm
  | .jalr _ rs1 imm => clearBit0 (basePlusImm s rs1 imm)
  | .bne rs1 rs2 imm => if s.reg rs1 ≠ s.reg rs2 then pcPlusImm s imm else s.pc + 4#32

/-- `s1` is the state after the bus access of the instruction: the one read of a load, the one write of a store, none
for the others (R50, R99). -/
def BusAccess (s s1 : State) : Instr → Prop
  | .lb _ rs1 imm => ∃ b, busRead s (basePlusImm s rs1 imm) = .ok b s1
  | .lbu _ rs1 imm => ∃ b, busRead s (basePlusImm s rs1 imm) = .ok b s1
  | .sb rs1 rs2 imm => busWrite s (basePlusImm s rs1 imm) (lowByte s rs2) = .ok () s1
  | _ => s1 = s

/-- A load that goes on: its read, then the write of rd, then pc + 4. -/
theorem loadByte_next_form {extend : Byte → Word} {rd rs1 : RegIdx} {imm : Word} {s t : State}
    (h : loadByte extend rd rs1 imm s = .next t) :
    ∃ s1 v, (∃ b, busRead s (basePlusImm s rs1 imm) = .ok b s1) ∧
      t = (s1.writeDest (some rd) v).setPc (s.pc + 4#32) := by
  obtain ⟨b, n, -, hr, rfl⟩ := loadByte_next h
  exact ⟨_, extend b, ⟨b, hr⟩, rfl⟩

/-- Everything an instruction that goes on can do: its bus access, the write of its destination, its next pc. -/
theorem exec_next {i : Instr} {s t : State} (h : exec i s = .next t) :
    ∃ s1 v, BusAccess s s1 i ∧ t = (s1.writeDest i.dest v).setPc (nextPc s i) := by
  cases i with
  | lui rd imm20 => cases h; exact ⟨s, upperImm imm20, rfl, rfl⟩
  | jal rd imm => cases h; exact ⟨s, linkValue s, rfl, rfl⟩
  | jalr rd rs1 imm => cases h; exact ⟨s, linkValue s, rfl, rfl⟩
  | addi rd rs1 imm => cases h; exact ⟨s, basePlusImm s rs1 imm, rfl, rfl⟩
  | bne rs1 rs2 imm =>
    cases h
    refine ⟨s, 0#32, rfl, ?_⟩
    by_cases hd : s.reg rs1 = s.reg rs2 <;> simp [registersDiffer, nextPc, Instr.dest, hd, State.advance]
  | lb rd rs1 imm => exact loadByte_next_form h
  | lbu rd rs1 imm => exact loadByte_next_form h
  | sb rs1 rs2 imm =>
    obtain ⟨s1, hw, rfl⟩ := execSb_next h
    obtain ⟨-, hpc, -⟩ := busWrite_keeps hw
    exact ⟨s1, 0#32, hw, by simp [nextPc, Instr.dest, State.advance, hpc]⟩

/-! ### What the bus access of an instruction leaves -/

/-- The access of an instruction other than SB changes at most the count of draws (R52). -/
theorem BusAccess.eq_of_not_sb {i : Instr} {s s1 : State} (h : BusAccess s s1 i) (hi : i.op ≠ .sb) :
    ∃ n, s1 = { s with draws := n } := by
  have read {a : Word} (hr : ∃ b, busRead s a = .ok b s1) : ∃ n, s1 = { s with draws := n } := by
    obtain ⟨b, hr⟩ := hr
    obtain ⟨n, -, e⟩ := busRead_ok_after hr
    exact ⟨n, e⟩
  cases i with
  | lb => exact read h
  | lbu => exact read h
  | sb => exact absurd rfl hi
  | _ => exact ⟨s.draws, h⟩

/-- The five operations that access no memory have no bus access (R50). -/
theorem BusAccess.eq_of_no_memory {i : Instr} {s s1 : State} (h : BusAccess s s1 i)
    (hi : i.op ∈ [Op.addi, Op.lui, Op.jal, Op.jalr, Op.bne]) : s1 = s := by
  cases i with
  | lb => simp [Instr.op] at hi
  | lbu => simp [Instr.op] at hi
  | sb => simp [Instr.op] at hi
  | _ => exact h

/-- No access changes a register, the latch or the bus configuration (R23, R32). -/
theorem BusAccess.keeps {i : Instr} {s s1 : State} (h : BusAccess s s1 i) :
    s1.regs = s.regs ∧ s1.failure = s.failure ∧ s1.configuration = s.configuration := by
  by_cases hi : i.op = .sb
  · cases i with
    | sb rs1 rs2 imm =>
      obtain ⟨hregs, -, hfail, hconf, -⟩ := busWrite_keeps h
      exact ⟨hregs, hfail, hconf⟩
    | _ => cases hi
  · obtain ⟨n, rfl⟩ := h.eq_of_not_sb hi
    exact ⟨rfl, rfl, rfl⟩

/-! ### What an instruction that goes on leaves -/

/-- The RAM a bus address shows depends on the devices alone. -/
theorem State.ramByte_congr {s t : State} (h : t.devices = s.devices) (a : Word) : t.ramByte a = s.ramByte a := by
  simp only [State.ramByte, h]

/-- The configuration of the bus depends on the devices alone. -/
theorem State.configuration_congr {s t : State} (h : t.devices = s.devices) : t.configuration = s.configuration := by
  simp only [State.configuration, h]

theorem State.reg_congr {s t : State} (h : t.regs = s.regs) (r : RegIdx) : t.reg r = s.reg r := by
  simp only [State.reg, h]

/-- The operations without a destination (R27). -/
theorem dest_eq_none_of_op {i : Instr} (h : i.op = .bne ∨ i.op = .sb) : i.dest = none := by
  cases i with
  | bne => rfl
  | sb => rfl
  | _ => simp [Instr.op] at h

section
variable {i : Instr} {s t : State} (h : exec i s = .next t)
include h

theorem exec_next_pc : t.pc = nextPc s i := by
  obtain ⟨s1, v, -, rfl⟩ := exec_next h
  rfl

theorem exec_next_reg_other {r : RegIdx} (hr : i.dest ≠ some r) : t.reg r = s.reg r := by
  obtain ⟨s1, v, ha, rfl⟩ := exec_next h
  obtain ⟨hregs, -⟩ := ha.keeps
  exact (State.reg_writeDest_other s1 i.dest v hr).trans (State.reg_congr hregs r)

theorem exec_next_regs_of_dest_none (hd : i.dest = none) : t.regs = s.regs := by
  obtain ⟨s1, v, ha, rfl⟩ := exec_next h
  obtain ⟨hregs, -⟩ := ha.keeps
  simpa [hd] using hregs

theorem exec_next_failure : t.failure = s.failure := by
  obtain ⟨s1, v, ha, rfl⟩ := exec_next h
  obtain ⟨-, hfail, -⟩ := ha.keeps
  simpa using hfail

theorem exec_next_configuration : t.configuration = s.configuration := by
  obtain ⟨s1, v, ha, rfl⟩ := exec_next h
  obtain ⟨-, -, hconf⟩ := ha.keeps
  exact (State.configuration_congr (by simp)).trans hconf

theorem exec_next_devices_of_not_sb (hi : i.op ≠ .sb) : t.devices = s.devices := by
  obtain ⟨s1, v, ha, rfl⟩ := exec_next h
  obtain ⟨n, rfl⟩ := ha.eq_of_not_sb hi
  simp

theorem exec_next_draws_of_no_memory (hi : i.op ∈ [Op.addi, Op.lui, Op.jal, Op.jalr, Op.bne]) :
    t.draws = s.draws := by
  obtain ⟨s1, v, ha, rfl⟩ := exec_next h
  simp [ha.eq_of_no_memory hi]

end

/-! ### What a step that fails leaves -/

/-- An instruction that stops is a failed step: only the latch and the count of draws change (R90, R103). -/
theorem exec_fault {i : Instr} {s : State} {r : Fault} (h : exec i s = .fault r) :
    ∃ f n, r = .stepFailed f (State.halt { s with draws := n } f) := by
  cases i with
  | lb => obtain ⟨k, n, -, -, rfl⟩ := loadByte_fault h; exact ⟨_, n, rfl⟩
  | lbu => obtain ⟨k, n, -, -, rfl⟩ := loadByte_fault h; exact ⟨_, n, rfl⟩
  | sb => obtain ⟨k, n, -, -, rfl⟩ := execSb_fault h; exact ⟨_, n, rfl⟩
  | _ => cases h

theorem failStep_fault {s t : State} {k : FailureKind} {p : Phase} {f : Failure}
    (h : failStep s k p = .fault (.stepFailed f t)) : t = s.halt f := by
  cases h
  rfl

/-- A failed step was taken by a Core that was not halted, on an accepted bus; it sets the latch, and only the latch and
the count of draws change (R89, R90). -/
theorem step_failed {s t : State} {f : Failure} (h : step s = .fault (.stepFailed f t)) :
    refusedDevice s.devices = none ∧ s.failure = none ∧ ∃ n, t = State.halt { s with draws := n } f := by
  rcases step_cases s with ⟨_, -, e⟩ | ⟨-, _, -, e⟩ | ⟨hbus, hrun, hphase⟩
  · cases e.symm.trans h
  · cases e.symm.trans h
  refine ⟨hbus, hrun, ?_⟩
  rcases hphase with ⟨_, n, -, -, e⟩ | ⟨_, n, _, -, -, -, e⟩ | ⟨_, n, _, -, -, -, e⟩
  · exact ⟨n, failStep_fault (e.symm.trans h)⟩
  · exact ⟨n, failStep_fault (e.symm.trans h)⟩
  · obtain ⟨_, m, e'⟩ := exec_fault (e.symm.trans h)
    cases e'
    exact ⟨m, rfl⟩

/-- The step's check of the bus passes exactly on an accepted bus (R33, D4). -/
theorem refusedDevice_none_iff_busOk {s : State} : refusedDevice s.devices = none ↔ s.busOk = true := by
  rw [refusedDevice_none_iff, State.busOk, List.all_eq_true]

/-- The step of a halted Core (R22, R85). -/
theorem step_of_halted {s : State} {f : Failure} (hbus : refusedDevice s.devices = none) (hf : s.failure = some f) :
    step s = .fault (.halted f) := by
  simp only [step, cycle, hbus, hf]

/-! ### The statements -/

/-- Settles O25: each of the five has no bus access, and then writes only its destination and the pc. -/
theorem registerAndBranchInstructionsFrame : Obligations.RegisterAndBranchInstructionsFrame := by
  intro i s t hop h
  have hdev : t.devices = s.devices := exec_next_devices_of_not_sb h fun e => by simp [e] at hop
  exact ⟨fun r => exec_next_reg_other h, exec_next_failure h, hdev, exec_next_draws_of_no_memory h hop,
    State.ramByte_congr hdev⟩

/-- Settles O26: the one bus read of a load changes no device. -/
theorem loadsFrame : Obligations.LoadsFrame := by
  intro i s t hop h
  have hdev : t.devices = s.devices := exec_next_devices_of_not_sb h fun e => by simp [e] at hop
  exact ⟨fun r => exec_next_reg_other h, exec_next_failure h, hdev, State.ramByte_congr hdev⟩

/-- Settles O37: the decoded instruction's next pc, and the pc kept by the failed step. -/
theorem nextPcByInstruction : Obligations.NextPcByInstruction := by
  refine ⟨fun s t h => ?_, fun s t f h => ?_⟩
  · obtain ⟨-, -, w, n, i, -, hfetch, hdec, hexec⟩ := step_next h
    refine ⟨w, _, i, hfetch, hdec, ?_⟩
    rw [exec_next_pc hexec]
    cases i <;> rfl
  · obtain ⟨-, -, n, rfl⟩ := step_failed h
    rfl

/-- Settles O40: the failed step sets the latch on a bus that stays accepted; no instruction that goes on writes it. -/
theorem onlyAFailedStepHalts : Obligations.OnlyAFailedStepHalts := by
  refine ⟨fun s t f h => ?_, fun s t h => ?_⟩
  · obtain ⟨hbus, hrun, n, rfl⟩ := step_failed h
    exact ⟨hrun, rfl, step_of_halted hbus rfl⟩
  · obtain ⟨-, hrun, w, n, i, -, -, -, hexec⟩ := step_next h
    exact ⟨hrun, (exec_next_failure hexec).trans hrun⟩

/-- Settles O47: an accepted write keeps the configuration, and every other access the devices themselves. -/
theorem busConfigurationIsConstant : Obligations.BusConfigurationIsConstant := by
  refine ⟨fun s t h => ?_, fun s t f h => ?_⟩
  · obtain ⟨-, -, w, n, i, -, -, -, hexec⟩ := step_next h
    exact (exec_next_configuration hexec).trans (State.configuration_congr rfl)
  · obtain ⟨-, -, n, rfl⟩ := step_failed h
    rfl

/-- Settles O49: the only register write of an instruction is that of its destination. -/
theorem onlyTheNamedRegisterChanges : Obligations.OnlyTheNamedRegisterChanges := by
  intro s t h
  obtain ⟨-, -, w, n, i, -, hfetch, hdec, hexec⟩ := step_next h
  refine ⟨w, _, i, hfetch, hdec, fun r hne => ?_, fun hop => ?_⟩
  · by_contra hdest
    exact hne (exec_next_reg_other hexec hdest)
  · have hregs := exec_next_regs_of_dest_none hexec (dest_eq_none_of_op hop)
    exact hregs

/-- Settles O10: the register rule holds for all 32 indices, so also for JALR's link in register 0. -/
theorem registerZeroIsOrdinary : Obligations.RegisterZeroIsOrdinary := by
  refine ⟨fun s i j v => State.reg_setReg s i v j, fun s rs1 imm => ⟨_, rfl, ?_⟩⟩
  rw [State.setPc_reg, State.reg_setReg_same]
  rfl

/-- Settles O11, by the fields of `State.reset`. -/
theorem resetLeavesZeroRegistersAndAnEmptyBus : Obligations.ResetLeavesZeroRegistersAndAnEmptyBus :=
  ⟨State.reset_reg, rfl, rfl, rfl⟩

/-- Settles O38: on an accepted bus the latch alone decides. -/
theorem haltedCoreTakesNoStep : Obligations.HaltedCoreTakesNoStep :=
  fun _ _ hbus hf => step_of_halted (refusedDevice_none_iff_busOk.mpr hbus) hf

end Sys2Proof.Machine
end

section
/-! PROOFS, family 20_memory: what a RAM byte on the bus means for reads, writes and fetches, what a step does to the
devices and to the count of draws, and the offsets the decoder gives; then the statements about memory, devices and
bus. -/

namespace Sys2Proof.Machine

/-! ### The device an address finds, and an address none does (R33, R37) -/

theorem Device.contains_eq_false_iff {d : Device} {a : Word} :
    d.contains a = false ↔ ¬ (d.base.toNat ≤ a.toNat ∧ a.toNat - d.base.toNat < d.size.toNat) := by
  rw [← Device.contains_iff, Bool.not_eq_true]

/-- The device found is the first one whose range holds the address. -/
theorem findDevice_eq_some_iff {devices : List Device} {a : Word} {d : Device} :
    findDevice devices a = some d ↔ ∃ earlier later, devices = earlier ++ d :: later ∧ d.contains a = true ∧
      ∀ e ∈ earlier, e.contains a = false := by
  refine ⟨findDevice_split, ?_⟩
  rintro ⟨earlier, later, rfl, hd, he⟩
  exact findDevice_append he hd

theorem findDevice_eq_none_iff {devices : List Device} {a : Word} :
    findDevice devices a = none ↔ ∀ d ∈ devices, d.contains a = false := by
  simp [findDevice]

theorem busRead_of_unmapped {s : State} {a : Word} (h : findDevice s.devices a = none) :
    busRead s a = .fail (.noDeviceAtAddress a) s := by
  simp only [busRead, h]

theorem busWrite_of_unmapped {s : State} {a : Word} (b : Byte) (h : findDevice s.devices a = none) :
    busWrite s a b = .fail (.noDeviceAtAddress a) s := by
  simp only [busWrite, h]

/-- Putting a found device back in its own place changes nothing. -/
theorem replaceFound_self {devices : List Device} {a : Word} {d : Device} (h : findDevice devices a = some d) :
    replaceFound devices a d = devices := by
  obtain ⟨earlier, later, rfl, hd, he⟩ := findDevice_split h
  exact replaceFound_append he hd

/-- Place by place, a replacement keeps every device but the found one. -/
theorem replaceFound_getElem? {devices : List Device} {a : Word} {d d' e : Device} {k : Nat}
    (h : findDevice devices a = some d) (hk : devices[k]? = some e) :
    (replaceFound devices a d')[k]? = some e ∨ (e = d ∧ (replaceFound devices a d')[k]? = some d') := by
  obtain ⟨earlier, later, rfl, hd, he⟩ := findDevice_split h
  rw [replaceFound_append he hd]
  rcases lt_trichotomy k earlier.length with hlt | rfl | hgt
  · left
    rwa [List.getElem?_append_left hlt] at hk ⊢
  · right
    simpa [eq_comm] using hk
  · left
    obtain ⟨m, rfl⟩ := Nat.exists_eq_add_of_lt hgt
    simpa [Nat.add_assoc, List.getElem?_append_right] using hk

/-! ### The RAM byte a bus address shows, under a write (R38, R55, D5) -/

theorem State.ramByte_ne_none_iff {s : State} {a : Word} :
    s.ramByte a ≠ none ↔ ∃ base cell, findDevice s.devices a = some ⟨base, .ram cell⟩ := by
  simp only [State.ramByte]
  constructor
  · intro h
    split at h
    · exact absurd rfl h
    · next d hf =>
      obtain ⟨base, kind⟩ := d
      cases kind with
      | ram cell => exact ⟨base, cell, hf⟩
      | console size out => exact absurd rfl h
      | other size => exact absurd rfl h
  · rintro ⟨base, cell, hf⟩
    simp [hf]

/-- A write where RAM answers sets the byte at the address's offset in that device. -/
theorem busWrite_of_ram {s : State} {a base : Word} {cell : MemoryCell} (b : Byte)
    (hf : findDevice s.devices a = some ⟨base, .ram cell⟩) :
    busWrite s a b = .ok () { s with
      devices := replaceFound s.devices a
        ⟨base, .ram { cell with bytes := cell.bytes.write (a.toNat - base.toNat) b }⟩ } := by
  have hc := findDevice_contains hf
  have ho : a.toNat - base.toNat < cell.capacity.toNat := (Device.contains_iff.mp hc).2
  simp [busWrite, hf, Device.write, hc, MemoryCell.write, Device.offset, ho, Except.map]

/-- Every device's write keeps its range. -/
theorem Device.write_contains {d d' : Device} {a : Word} {b : Byte} {n n' : Nat} (h : d.write a b n = (.ok d', n'))
    (x : Word) : d'.contains x = d.contains x := by
  obtain ⟨hbase, -, hsize, -⟩ := Device.write_keeps h
  exact Device.contains_congr hbase hsize x

/-- After a write that succeeds the address finds the device as written. -/
theorem busWrite_findDevice_same {s s1 : State} {a : Word} {b : Byte} {u : Unit} (h : busWrite s a b = .ok u s1) :
    ∃ d d' n n', findDevice s.devices a = some d ∧ d.write a b n = (.ok d', n') ∧
      findDevice s1.devices a = some d' := by
  obtain ⟨d, d', n, hf, hw, rfl⟩ := busWrite_ok h
  obtain ⟨earlier, later, hs, hc, he⟩ := findDevice_split hf
  refine ⟨d, d', _, n, hf, hw, ?_⟩
  simp only [hs, replaceFound_append he hc]
  exact findDevice_append he ((Device.write_contains hw a).trans hc)

/-- On canonical storage the written address shows the byte written, where RAM answers. -/
theorem busWrite_ramByte_same {s s1 : State} {a : Word} {b : Byte} {u : Unit} (hm : s.memoryOk = true)
    (ha : s.ramByte a ≠ none) (h : busWrite s a b = .ok u s1) : s1.ramByte a = some b := by
  obtain ⟨base, cell, hram⟩ := State.ramByte_ne_none_iff.mp ha
  obtain ⟨d, d', n, n', hf, hw, hf'⟩ := busWrite_findDevice_same h
  cases hram.symm.trans hf
  obtain ⟨-, ⟨_, ⟨⟩, -, -, rfl⟩ | ⟨_, _, ⟨⟩, -⟩ | ⟨_, ⟨⟩, -⟩⟩ := Device.write_ok hw
  have hwf : MemoryCell.wf cell = true := List.all_eq_true.mp hm _ (findDevice_mem hram)
  obtain ⟨hbytes, -⟩ := MemoryCell.wf_iff.mp hwf
  simp only [State.ramByte, hf']
  exact congrArg some (Memory.read_write_same hbytes _ b)

/-- A device that takes a byte at one address shows the same RAM byte at every other. -/
theorem Device.write_ramByte_other {s s1 : State} {d d' : Device} {a x : Word} {b : Byte} {n n' : Nat}
    (h : d.write a b n = (.ok d', n')) (hx : x ≠ a) (hs : findDevice s.devices x = some d)
    (hs1 : findDevice s1.devices x = some d') : s1.ramByte x = s.ramByte x := by
  obtain ⟨hc, ⟨cell, hk, -, -, rfl⟩ | ⟨_, _, hk, -, rfl⟩ | ⟨_, hk, -, rfl, -⟩⟩ := Device.write_ok h
  · obtain ⟨ha, -⟩ := Device.contains_iff.mp hc
    obtain ⟨hxb, -⟩ := Device.contains_iff.mp (findDevice_contains hs)
    have hne : x.toNat ≠ a.toNat := fun e => hx (BitVec.eq_of_toNat_eq e)
    have hoff : d.offset x ≠ d.offset a := by simp only [Device.offset]; omega
    simp only [State.ramByte, hs, hs1, hk]
    exact congrArg some (Memory.read_write_other hoff)
  · simp only [State.ramByte, hs, hs1, hk]
  · simp only [State.ramByte, hs, hs1]

/-- A write changes the RAM byte of no other address. -/
theorem busWrite_ramByte_other {s s1 : State} {a x : Word} {b : Byte} {u : Unit} (h : busWrite s a b = .ok u s1)
    (hx : x ≠ a) : s1.ramByte x = s.ramByte x := by
  obtain ⟨d, d', n, hf, hw, rfl⟩ := busWrite_ok h
  rcases findDevice_replaceFound hf (Device.write_contains hw) x with hsame | ⟨hold, hnew⟩
  · simp only [State.ramByte, hsame]
  · exact Device.write_ramByte_other hw hx hold hnew

/-! ### Fetching from RAM (R45, R46) -/

/-- The four bytes of a word, the first least significant (R45). -/
theorem wordOfBytes_bytes (b0 b1 b2 b3 : Byte) :
    (wordOfBytes b0 b1 b2 b3).extractLsb' 0 8 = b0 ∧ (wordOfBytes b0 b1 b2 b3).extractLsb' 8 8 = b1 ∧
    (wordOfBytes b0 b1 b2 b3).extractLsb' 16 8 = b2 ∧ (wordOfBytes b0 b1 b2 b3).extractLsb' 24 8 = b3 := by
  have past {n : Nat} (x : BitVec n) (b : Byte) (k : Nat) : (x ++ b).extractLsb' (k + 8) 8 = x.extractLsb' k 8 := by
    rw [BitVec.extractLsb'_append_eq_of_le (by omega), Nat.add_sub_cancel]
  refine ⟨BitVec.extractLsb'_append_eq_right, ?_, ?_, ?_⟩
  · exact (past _ b0 0).trans BitVec.extractLsb'_append_eq_right
  · exact (past _ b0 8).trans ((past _ b1 0).trans BitVec.extractLsb'_append_eq_right)
  · exact (past _ b0 16).trans ((past _ b1 8).trans BitVec.extractLsb'_append_eq_left)

/-- Byte `k` of a fetched word is the answer of the read of pc + k (R45). -/
theorem fetch_ok_byte {s s1 : State} {w : Word} (h : fetch s = .ok w s1) {k : Nat} (hk : k < 4) :
    ∃ n m, busRead { s with draws := n } (s.pc + BitVec.ofNat 32 k) =
      .ok (w.extractLsb' (8 * k) 8) { s with draws := m } := by
  obtain ⟨b0, b1, b2, b3, n0, n1, n2, n3, h0, h1, h2, h3, -, -, -, -, rfl, -⟩ := fetch_ok h
  obtain ⟨e0, e1, e2, e3⟩ := wordOfBytes_bytes b0 b1 b2 b3
  interval_cases k
  · exact ⟨s.draws, n0, by rw [e0, BitVec.add_zero]; exact h0⟩
  · exact ⟨n0, n1, by rw [e1]; exact h1⟩
  · exact ⟨n1, n2, by rw [e2]; exact h2⟩
  · exact ⟨n2, n3, by rw [e3]; exact h3⟩

/-- A fetch whose read of pc + k fails, the reads before it answered by RAM, fails as that read does (R46). -/
theorem fetch_fail_at {s : State} {k : Nat} {e : FailureKind} (hk : k < 4)
    (hram : ∀ j, j < k → s.ramByte (s.pc + BitVec.ofNat 32 j) ≠ none)
    (hfail : busRead s (s.pc + BitVec.ofNat 32 k) = .fail e s) : fetch s = .fail e s := by
  have read (j : Nat) (hj : j < k) : ∃ b, busRead s (s.pc + BitVec.ofNat 32 j) = .ok b s := by
    obtain ⟨b, hb⟩ := Option.ne_none_iff_exists'.mp (hram j hj)
    exact ⟨b, busRead_of_ramByte hb⟩
  have first (hpos : 0 < k) : ∃ b, busRead s s.pc = .ok b s := by
    simpa using read 0 hpos
  interval_cases k
  · rw [BitVec.add_zero] at hfail
    simp only [fetch, BusResult.andThen, hfail]
  · obtain ⟨b0, h0⟩ := first (by decide)
    simp only [fetch, BusResult.andThen, h0, hfail]
  · obtain ⟨b0, h0⟩ := first (by decide)
    obtain ⟨b1, h1⟩ := read 1 (by decide)
    simp only [fetch, BusResult.andThen, h0, h1, hfail]
  · obtain ⟨b0, h0⟩ := first (by decide)
    obtain ⟨b1, h1⟩ := read 1 (by decide)
    obtain ⟨b2, h2⟩ := read 2 (by decide)
    simp only [fetch, BusResult.andThen, h0, h1, h2, hfail]

/-- The step of a Core that is not halted, on an accepted bus, whose fetch fails (R46). -/
theorem step_of_fetch_fail {s s1 : State} {k : FailureKind} (hbus : s.busOk = true) (hrun : s.failure = none)
    (hf : fetch s = .fail k s1) : step s = failStep s1 k .fetch := by
  simp only [step, cycle, refusedDevice_none_iff_busOk.mpr hbus, hrun, hf]

/-! ### Loads and stores where a device answers by a free value (R34, R35, R39) -/

theorem sextByte_eq_signExtend (b : Byte) : sextByte b = b.signExtend 32 := by
  apply BitVec.eq_of_getLsbD_eq
  intro i hi
  rw [sextByte, signExtend_getLsbD _ 8 (by decide) i hi, BitVec.getLsbD_signExtend]
  by_cases h8 : i < 8 <;> simp [h8, hi, BitVec.msb_eq_getLsbD_last]

theorem lowByte_eq_extractLsb' (s : State) (r : RegIdx) : lowByte s r = (s.reg r).extractLsb' 0 8 := by
  simp [lowByte, BitVec.setWidth_eq_extractLsb']

section
variable {extend : Byte → Word} {rd rs1 : RegIdx} {imm : Word} {s s1 : State}

theorem loadByte_of_read_ok {b : Byte} (h : busRead s (basePlusImm s rs1 imm) = .ok b s1) :
    loadByte extend rd rs1 imm s = .next (s1.setReg rd (extend b)).advance := by
  simp only [loadByte, h]

theorem loadByte_of_read_fail {k : FailureKind} (h : busRead s (basePlusImm s rs1 imm) = .fail k s1) :
    loadByte extend rd rs1 imm s = failStep s1 k .load := by
  simp only [loadByte, h]

end

/-- The free value that answers a read of the device, if its kind answers so: a console's or another kind's. -/
def Device.FreeRead (d : Device) (a : Word) (draw : Nat) (answer : Option Byte) : Prop :=
  ((∃ size out, d.kind = .console size out) ∧ answer = Config.consoleRead draw a) ∨
    ((∃ size, d.kind = .other size) ∧ answer = Config.otherRead draw a)

theorem Device.read_of_freeRead {d : Device} {a : Word} {n : Nat} {answer : Option Byte} (hc : d.contains a = true)
    (h : d.FreeRead a n answer) : d.read a n = (freeAnswer a answer, n + 1) := by
  obtain ⟨⟨size, out, hk⟩, rfl⟩ | ⟨⟨size, hk⟩, rfl⟩ := h
  · simp only [Device.read, hc, hk, if_true]
  · simp only [Device.read, hc, hk, if_true]

section
variable {s : State} {a : Word} {d : Device} (hf : findDevice s.devices a = some d)
include hf

theorem busRead_of_free_byte {b : Byte} (h : d.FreeRead a s.draws (some b)) :
    busRead s a = .ok b { s with draws := s.draws + 1 } := by
  simp only [busRead, hf, Device.read_of_freeRead (findDevice_contains hf) h, freeAnswer]

theorem busRead_of_free_error (h : d.FreeRead a s.draws none) :
    busRead s a = .fail (.deviceFailure a) { s with draws := s.draws + 1 } := by
  simp only [busRead, hf, Device.read_of_freeRead (findDevice_contains hf) h, freeAnswer]

end

/-- A write to a device of another kind: its free acceptance decides, and no device changes either way (R35). -/
theorem busWrite_of_other {s : State} {a base size : Word} (b : Byte)
    (hf : findDevice s.devices a = some ⟨base, .other size⟩) :
    busWrite s a b =
      if Config.otherWriteOk s.draws a b then .ok () { s with draws := s.draws + 1 }
      else .fail (.deviceFailure a) { s with draws := s.draws + 1 } := by
  by_cases hw : Config.otherWriteOk s.draws a b = true
  · simp [busWrite, hf, Device.write, findDevice_contains hf, hw, replaceFound_self hf]
  · simp [busWrite, hf, Device.write, findDevice_contains hf, hw]

/-! ### What a step that goes on does to the devices (R50, R52) -/

/-- A step that goes on leaves the devices, or ran an SB and leaves them as its one write did. -/
theorem step_next_devices {s t : State} (h : step s = .next t) :
    t.devices = s.devices ∨
    ∃ w n rs1 rs2 imm s1, fetch s = .ok w { s with draws := n } ∧ decode w = .ok (.sb rs1 rs2 imm) ∧
      busWrite { s with draws := n } (basePlusImm s rs1 imm) (lowByte s rs2) = .ok () s1 ∧
      t.devices = s1.devices := by
  obtain ⟨-, -, w, n, i, -, hfetch, hdec, hexec⟩ := step_next h
  by_cases hi : i.op = .sb
  · cases i with
    | sb rs1 rs2 imm =>
      obtain ⟨s1, v, hw, rfl⟩ := exec_next hexec
      exact .inr ⟨w, n, rs1, rs2, imm, s1, hfetch, hdec, hw, rfl⟩
    | _ => cases hi
  · have hdev := exec_next_devices_of_not_sb hexec hi
    exact .inl hdev

theorem State.memoryOk_congr {s t : State} (h : t.devices = s.devices) : t.memoryOk = s.memoryOk := by
  simp only [State.memoryOk, h]

theorem State.busOk_congr {s t : State} (h : t.devices = s.devices) : t.busOk = s.busOk := by
  simp only [State.busOk, h]

/-- The output of a console takes the byte written at its end; no other kind has one (R39, D10). -/
theorem Device.write_consoleOut {d d' : Device} {a : Word} {b : Byte} {n n' : Nat}
    (h : d.write a b n = (.ok d', n')) :
    ∃ more, d'.consoleOut = d.consoleOut ++ more ∧ more.length ≤ 1 := by
  obtain ⟨-, ⟨cell, hk, -, -, rfl⟩ | ⟨size, out, hk, -, rfl⟩ | ⟨size, hk, -, rfl, -⟩⟩ := Device.write_ok h
  · exact ⟨[], by simp [Device.consoleOut, hk], by simp⟩
  · exact ⟨[b], by simp [Device.consoleOut, hk], by simp⟩
  · exact ⟨[], by simp, by simp⟩

/-! ### The draws of a step on a bus of RAM devices (R38, R118) -/

/-- Every device is RAM. -/
def State.RamOnly (s : State) : Prop := ∀ d ∈ s.devices, d.kindName = .ram

theorem busRead_draws_of_ramOnly {s s1 : State} {a : Word} {b : Byte} (hram : s.RamOnly)
    (h : busRead s a = .ok b s1) : s1.draws = s.draws := by
  rcases busRead_cases s a with ⟨-, e⟩ | ⟨_, _, -, e⟩ | ⟨d, hf, hk, -⟩
  · cases e.symm.trans h
  · cases e.symm.trans h
    rfl
  · exact absurd (hram d (findDevice_mem hf)) hk

theorem busWrite_draws_of_ramOnly {s s1 : State} {a : Word} {b : Byte} {u : Unit} (hram : s.RamOnly)
    (h : busWrite s a b = .ok u s1) : s1.draws = s.draws := by
  obtain ⟨d, d', n, hf, hw, rfl⟩ := busWrite_ok h
  have hd := hram d (findDevice_mem hf)
  obtain ⟨-, ⟨_, -, -, hn, -⟩ | ⟨_, _, hk, -⟩ | ⟨_, hk, -⟩⟩ := Device.write_ok hw
  · exact hn
  · simp [Device.kindName, hk] at hd
  · simp [Device.kindName, hk] at hd

theorem fetch_draws_of_ramOnly {s s1 : State} {w : Word} (hram : s.RamOnly) (h : fetch s = .ok w s1) :
    s1.draws = s.draws := by
  obtain ⟨_, _, _, _, n0, n1, n2, n3, h0, h1, h2, h3, -, -, -, -, -, rfl⟩ := fetch_ok h
  have e0 : n0 = s.draws := busRead_draws_of_ramOnly hram h0
  have e1 : n1 = n0 := busRead_draws_of_ramOnly (s := { s with draws := n0 }) hram h1
  have e2 : n2 = n1 := busRead_draws_of_ramOnly (s := { s with draws := n1 }) hram h2
  have e3 : n3 = n2 := busRead_draws_of_ramOnly (s := { s with draws := n2 }) hram h3
  exact e3.trans (e2.trans (e1.trans e0))

theorem BusAccess.draws_of_ramOnly {i : Instr} {s s1 : State} (hram : s.RamOnly) (h : BusAccess s s1 i) :
    s1.draws = s.draws := by
  cases i with
  | lb => obtain ⟨b, hr⟩ := h; exact busRead_draws_of_ramOnly hram hr
  | lbu => obtain ⟨b, hr⟩ := h; exact busRead_draws_of_ramOnly hram hr
  | sb => exact busWrite_draws_of_ramOnly hram h
  | _ => exact congrArg State.draws h

/-! ### Even offsets (R48, R67, R68) -/

theorem decodeJ_imm_even (w : Word) : (decodeJ w).imm.getLsbD 0 = false := by
  simp [decodeJ, signExtend_getElem]

theorem decodeB_imm_even (w : Word) : (decodeB w).imm.getLsbD 0 = false := by
  simp [decodeB, signExtend_getElem]

/-- A word that decodes is decoded by the record of the operation its row names (R87, R88). -/
theorem decode_ok {w : Word} {i : Instr} (h : decode w = .ok i) :
    ∃ op, dispatch w = some op ∧ i = decodeAs op w := by
  unfold decode at h
  split at h
  · next op hop => exact ⟨op, hop, (Except.ok.inj h).symm⟩
  · cases h

theorem add_even {x y : Word} (hx : x.getLsbD 0 = false) (hy : y.getLsbD 0 = false) : (x + y).getLsbD 0 = false := by
  rw [BitVec.getLsbD_add (by decide), hx, hy, BitVec.carry_zero]
  rfl

theorem clearBit0_even (x : Word) : (clearBit0 x).getLsbD 0 = false := by
  simp [clearBit0]

/-- Every decoded instruction goes on to an even pc from an even one. -/
theorem nextPc_even {s : State} {w : Word} {i : Instr} (hpc : s.pc.getLsbD 0 = false) (hd : decode w = .ok i) :
    (nextPc s i).getLsbD 0 = false := by
  have advance : (s.pc + 4#32).getLsbD 0 = false := add_even hpc (by decide)
  obtain ⟨op, -, rfl⟩ := decode_ok hd
  cases op with
  | jal => exact add_even hpc (decodeJ_imm_even w)
  | jalr => exact clearBit0_even _
  | bne =>
    simp only [decodeAs, nextPc]
    split
    · exact add_even hpc (decodeB_imm_even w)
    · exact advance
  | _ => exact advance

/-! ### The statements -/

/-- Settles O44: only an SB changes devices, and its write keeps storage and ranges; the step checked the bus. -/
theorem stepKeepsStorageCanonical : Obligations.StepKeepsStorageCanonical := by
  intro s t hm h
  obtain ⟨hbus, -⟩ := step_next h
  have hb : s.busOk = true := refusedDevice_none_iff_busOk.mp hbus
  rcases step_next_devices h with hdev | ⟨_, n, _, _, _, s1, -, -, hw, hdev⟩
  · rw [State.memoryOk_congr hdev, State.busOk_congr hdev]
    exact ⟨hm, hb⟩
  · obtain ⟨-, -, -, -, keepsBus, keepsMemory⟩ := busWrite_keeps hw
    rw [State.memoryOk_congr hdev, State.busOk_congr hdev]
    exact ⟨keepsMemory hm, keepsBus hb⟩

/-- Settles O46: the decoded instruction's next pc is even, whichever it is. -/
theorem evenPcStaysEven : Obligations.EvenPcStaysEven := by
  intro s t hpc h
  obtain ⟨-, -, w, n, i, -, -, hdec, hexec⟩ := step_next h
  rw [exec_next_pc hexec]
  exact nextPc_even hpc hdec

/-- Settles O21: the load does what its one read does, and that is the free answer. -/
theorem loadsFromOpenDevicesFollowTheFreeAnswer : Obligations.LoadsFromOpenDevicesFollowTheFreeAnswer := by
  intro rd rs1 imm s d answer hf (hfree : d.FreeRead (s.reg rs1 + imm) s.draws answer)
  cases answer with
  | some b =>
    have hread := busRead_of_free_byte hf hfree
    refine ⟨?_, loadByte_of_read_ok hread⟩
    rw [← sextByte_eq_signExtend]
    exact loadByte_of_read_ok hread
  | none =>
    have hread := busRead_of_free_error hf hfree
    exact ⟨loadByte_of_read_fail hread, loadByte_of_read_fail hread⟩

/-- Settles O23: the store does what its one write does, and that is the free acceptance. -/
theorem storesToOtherDevicesFollowTheFreeAnswer : Obligations.StoresToOtherDevicesFollowTheFreeAnswer := by
  rintro rs1 rs2 imm s base size accepted hf rfl
  have hw := busWrite_of_other ((s.reg rs2).extractLsb' 0 8) hf
  rw [← lowByte_eq_extractLsb'] at hw ⊢
  simp only [exec, execSb, basePlusImm, hw]
  cases Config.otherWriteOk s.draws (s.reg rs1 + imm) (lowByte s rs2) <;> rfl

/-- Settles O28: the storage reads back a write where it is canonical, and both check the capacity. -/
theorem memoryCellReadsBackWrites : Obligations.MemoryCellReadsBackWrites := by
  intro c o b hc
  obtain ⟨hbytes, -⟩ := MemoryCell.wf_iff.mp hc
  refine ⟨fun ho => ?_, fun ho => ?_⟩
  · refine ⟨if_pos ho, { c with bytes := c.bytes.write o b }, if_pos ho, rfl, MemoryCell.wf_setByte hc ho b, ?_,
      fun o' hne => ?_⟩
    · simp [MemoryCell.read, ho, Memory.read_write_same hbytes]
    · simp [MemoryCell.read, Memory.read_write_other hne]
  · exact ⟨if_neg (Nat.not_lt.mpr ho), if_neg (Nat.not_lt.mpr ho)⟩

/-- Settles O30: the first match of the list, with the range of R33 written out. -/
theorem findDeviceIsFirstMatch : Obligations.FindDeviceIsFirstMatch := by
  intro devices a
  refine ⟨fun d => ?_, ?_⟩
  · simp only [findDevice_eq_some_iff, Device.contains_iff, Device.contains_eq_false_iff]
  · simp only [findDevice_eq_none_iff, Device.contains_eq_false_iff]

/-- Settles O32: the write goes to the RAM device the address finds, and the next read finds it there. -/
theorem ramReadReturnsLastWrite : Obligations.RamReadReturnsLastWrite := by
  intro s a b hm ha
  obtain ⟨base, cell, hf⟩ := State.ramByte_ne_none_iff.mp ha
  have hw := busWrite_of_ram b hf
  exact ⟨_, hw, busRead_of_ramByte (busWrite_ramByte_same hm ha hw), fun x hx => busWrite_ramByte_other hw hx⟩

/-- Settles O33: each of the four reads answers its RAM byte and changes nothing. -/
theorem fetchIsLittleEndian : Obligations.FetchIsLittleEndian := by
  intro s b0 b1 b2 b3 h0 h1 h2 h3
  simp only [fetch, BusResult.andThen, busRead_of_ramByte h0, busRead_of_ramByte h1, busRead_of_ramByte h2,
    busRead_of_ramByte h3, wordOfBytes]

/-- Settles O34: the reads before the unmapped address answer, so its failure is the fetch's and the step's. -/
theorem fetchFailsAtTheFirstUnmappedByte : Obligations.FetchFailsAtTheFirstUnmappedByte := by
  intro s k hbus hrun hk hram hnone
  exact step_of_fetch_fail hbus hrun (fetch_fail_at hk hram (busRead_of_unmapped hnone))

/-- Settles O36: after the store the address shows the stored byte, so the fetch's read of it answers that byte. -/
theorem storeIsSeenByTheNextFetch : Obligations.StoreIsSeenByTheNextFetch := by
  intro rs1 rs2 imm s t t1 w k hm hk hram hexec haddr hfetch
  obtain ⟨s1, hw, rfl⟩ := execSb_next hexec
  have hbyte : s1.ramByte (s.reg rs1 + imm) = some (lowByte s rs2) := busWrite_ramByte_same hm hram hw
  obtain ⟨n, m, hread⟩ := fetch_ok_byte hfetch hk
  rw [← haddr] at hread
  have hshown : State.ramByte { s1.advance with draws := n } (s.reg rs1 + imm) = some (lowByte s rs2) :=
    (State.ramByte_congr rfl _).trans hbyte
  have heq := hread.symm.trans (busRead_of_ramByte hshown)
  rw [← lowByte_eq_extractLsb']
  injection heq

/-- Settles O48: a step that changed a device ran the SB. -/
theorem onlySbChangesDevices : Obligations.OnlySbChangesDevices := by
  intro s t h hne
  rcases step_next_devices h with hdev | ⟨w, n, rs1, rs2, imm, s1, hfetch, hdec, -, -⟩
  · exact absurd hdev hne
  · exact ⟨w, _, rs1, rs2, imm, hfetch, hdec⟩

/-- Settles O50: the one write of a step appends at most its byte to the device it finds. -/
theorem consoleOutputOnlyGrows : Obligations.ConsoleOutputOnlyGrows := by
  intro s t h k d hk
  have unchanged {devices : List Device} (hd : devices[k]? = some d) :
      ∃ d' more, devices[k]? = some d' ∧ d'.consoleOut = d.consoleOut ++ more ∧ more.length ≤ 1 :=
    ⟨d, [], hd, by simp, by simp⟩
  rcases step_next_devices h with hdev | ⟨_, n, _, _, _, s1, -, -, hw, hdev⟩
  · rw [hdev]
    exact unchanged hk
  · obtain ⟨found, d', n', hf, hwrite, rfl⟩ := busWrite_ok hw
    rw [hdev]
    rcases replaceFound_getElem? (d' := d') hf hk with hsame | ⟨rfl, hnew⟩
    · exact unchanged hsame
    · obtain ⟨more, hout, hlen⟩ := Device.write_consoleOut hwrite
      exact ⟨d', more, hnew, hout, hlen⟩

/-- Settles O51: neither the fetch nor the instruction's access meets a device that draws. -/
theorem ramOnlyStepDrawsNothing : Obligations.RamOnlyStepDrawsNothing := by
  intro s t hram h
  obtain ⟨-, -, w, n, i, -, hfetch, -, hexec⟩ := step_next h
  obtain ⟨s1, v, ha, rfl⟩ := exec_next hexec
  have hn : n = s.draws := fetch_draws_of_ramOnly hram hfetch
  have hs1 : s1.draws = n := BusAccess.draws_of_ramOnly (s := { s with draws := n }) hram ha
  simpa using hs1.trans hn

/-- Settles O29, by the range check both accesses make first. -/
theorem devicesCheckTheirOwnRange : Obligations.DevicesCheckTheirOwnRange := by
  intro d a b n hout
  have hc : d.contains a = false := Device.contains_eq_false_iff.mpr hout
  simp [Device.read, Device.write, hc]

/-- Settles O31: no device's range holds the address, so the lookup answers none. -/
theorem unmappedAccessIsNeverDefaulted : Obligations.UnmappedAccessIsNeverDefaulted := by
  intro s a b hout
  have hf : findDevice s.devices a = none :=
    findDevice_eq_none_iff.mpr fun d hd => Device.contains_eq_false_iff.mpr (hout d hd)
  exact ⟨busRead_of_unmapped hf, busWrite_of_unmapped b hf⟩

/-- Settles O43: the step's check of the bus finds the first range past 2^32. -/
theorem wrappingRangesAreRefused : Obligations.WrappingRangesAreRefused := by
  intro s earlier later d hs hearlier hd
  have hok : ∀ e ∈ earlier, e.rangeOk = true := fun e he => decide_eq_true (hearlier e he)
  have hwraps : d.rangeOk = false := decide_eq_false (Nat.not_le.mpr hd)
  have hrefused : refusedDevice s.devices = some d := by
    rw [hs, refusedDevice, List.find?_append, ← refusedDevice, refusedDevice_none_iff.mpr hok]
    simp [hwraps]
  simp only [step, cycle, hrefused]

end Sys2Proof.Machine
end

section
/-! PROOFS, family 30_encoding: the bit utilities as the library's operations, the dispatch as the one matching row, and
the format decoders and encoders as each other's inverses; then the statements about encoding. -/

namespace Sys2Proof

/-! ### The bit utilities through the library's operations (R59 to R61) -/

theorem mask_toNat {n : Nat} (h : n ≤ 32) : (mask n).toNat = 2 ^ n - 1 := by
  apply Nat.eq_of_testBit_eq
  intro i
  rw [BitVec.testBit_toNat, mask_getLsbD, Nat.testBit_two_pow_sub_one]
  by_cases hi : i < n
  · simp [hi, Nat.lt_of_lt_of_le hi h]
  · simp [hi]

theorem bitsSlice_of_valid (v : Word) {s e : Nat} (hs : s ≤ e) (he : e ≤ 32) :
    bitsSlice v s e = (v >>> s) &&& mask (e - s) := if_pos ⟨hs, he⟩

theorem bitsSlice_of_invalid (v : Word) {s e : Nat} (h : e < s ∨ 32 < e) : bitsSlice v s e = 0#32 :=
  if_neg (by omega)

theorem bitsSlice_toNat (v : Word) {s e : Nat} (hs : s ≤ e) (he : e ≤ 32) :
    (bitsSlice v s e).toNat = v.toNat / 2 ^ s % 2 ^ (e - s) := by
  rw [bitsSlice_of_valid v hs he, BitVec.toNat_and, BitVec.toNat_ushiftRight, mask_toNat (by omega),
    Nat.and_two_pow_sub_one_eq_mod, Nat.shiftRight_eq_div_pow]

theorem bitsSlice_of_toNat_lt {v : Word} {n : Nat} (hn : n ≤ 32) (h : v.toNat < 2 ^ n) : bitsSlice v 0 n = v := by
  apply BitVec.eq_of_toNat_eq
  rw [bitsSlice_toNat v (Nat.zero_le n) hn, Nat.pow_zero, Nat.div_one, Nat.sub_zero, Nat.mod_eq_of_lt h]

theorem setWidth_bitsSlice (v : Word) {s e n : Nat} (hs : s + n = e) (he : e ≤ 32) :
    (bitsSlice v s e).setWidth n = v.extractLsb' s n := by
  apply BitVec.eq_of_toNat_eq
  rw [BitVec.toNat_setWidth, bitsSlice_toNat v (by omega) he, BitVec.extractLsb'_toNat, Nat.shiftRight_eq_div_pow,
    Nat.sub_eq_of_eq_add' hs.symm, Nat.mod_mod]

theorem signExtend_eq_signExtend_setWidth (v : Word) {bits : Nat} (h : 0 < bits) :
    signExtend v bits h = (v.setWidth bits).signExtend 32 := by
  apply BitVec.eq_of_getLsbD_eq
  intro i hi
  rw [signExtend_getLsbD v bits h i hi, BitVec.getLsbD_signExtend, BitVec.msb_setWidth]
  by_cases hlow : i < bits <;> simp [hi, hlow, h]

theorem signExtend_toNat (v : Word) {bits : Nat} (h : 0 < bits) (hb : bits ≤ 32) :
    (signExtend v bits h).toNat =
      if v.getLsbD (bits - 1) then v.toNat % 2 ^ bits + 2 ^ 32 - 2 ^ bits else v.toNat % 2 ^ bits := by
  have hpow : 2 ^ bits ≤ 2 ^ 32 := Nat.pow_le_pow_right (by decide) hb
  have hlow : v.toNat % 2 ^ bits < 2 ^ bits := Nat.mod_lt _ (Nat.two_pow_pos bits)
  rw [signExtend_eq_signExtend_setWidth v h, BitVec.toNat_signExtend, BitVec.msb_setWidth, decide_eq_true h,
    Bool.true_and, BitVec.toNat_setWidth, BitVec.toNat_setWidth, Nat.mod_eq_of_lt (a := _ % _) (by omega)]
  split <;> omega

theorem signExtend_of_32_le (v : Word) {bits : Nat} (h : 0 < bits) (hb : 32 ≤ bits) : signExtend v bits h = v :=
  if_pos hb

theorem fitsSigned_signExtend (v : Word) {bits : Nat} (h : 0 < bits) (hb : bits ≤ 32) :
    fitsSigned bits (signExtend v bits h) = true := by
  rw [signExtend_eq_signExtend_setWidth v h, fitsSigned, BitVec.toInt_signExtend_of_le hb, Bool.and_eq_true,
    decide_eq_true_iff, decide_eq_true_iff]
  exact ⟨BitVec.le_toInt _, BitVec.toInt_lt⟩

/-- An immediate in its format's range is the sign extension of its own low bits (R61, R70). -/
theorem signExtend_of_fitsSigned {imm : Word} {bits : Nat} (h : 0 < bits) (hb : bits ≤ 32)
    (hfits : fitsSigned bits imm = true) : signExtend imm bits h = imm := by
  rw [fitsSigned, Bool.and_eq_true, decide_eq_true_iff, decide_eq_true_iff] at hfits
  obtain ⟨hlo, hhi⟩ := hfits
  have hdouble : (2 : Int) ^ bits = 2 ^ (bits - 1) * 2 := by rw [← pow_succ, Nat.sub_add_cancel h]
  apply BitVec.eq_of_toInt_eq
  rw [signExtend_eq_signExtend_setWidth imm h, BitVec.toInt_signExtend_of_le hb,
    ← BitVec.signExtend_eq_setWidth_of_le _ hb, BitVec.toInt_signExtend, Nat.min_eq_left hb]
  apply Int.bmod_eq_of_le_mul_two <;> push_cast <;> omega

theorem isEven_iff (imm : Word) : isEven imm = true ↔ imm.getLsbD 0 = false := by
  rw [isEven, decide_eq_true_iff, BitVec.getLsbD, Nat.testBit_zero, decide_eq_false_iff_not]
  omega

/-! ### Dispatch: the one row a word matches (R72 to R76) -/

/-- No word matches two rows: rows that agree on the bits both masks keep are the same row (R75). -/
theorem supportedTable_disjoint : ∀ r ∈ supportedTable, ∀ r' ∈ supportedTable,
    r.bits &&& r'.mask = r'.bits &&& r.mask → r = r' := by decide

theorem TableRow.matchesWord_iff {r : TableRow} {w : Word} : r.matchesWord w = true ↔ w &&& r.mask = r.bits :=
  decide_eq_true_iff

/-- The dispatch's search finds a row exactly if the word matches it: no earlier row can match too (R75). -/
theorem find_row_iff {w : Word} {r : TableRow} :
    supportedTable.find? (fun x => x.matchesWord w) = some r ↔ r ∈ supportedTable ∧ w &&& r.mask = r.bits := by
  have sound {x : TableRow} (hf : supportedTable.find? (fun y => y.matchesWord w) = some x) :
      x ∈ supportedTable ∧ w &&& x.mask = x.bits :=
    ⟨List.mem_of_find?_eq_some hf,
      TableRow.matchesWord_iff.mp (List.find?_some (p := fun y : TableRow => y.matchesWord w) hf)⟩
  refine ⟨sound, fun ⟨hr, hw⟩ => ?_⟩
  cases hf : supportedTable.find? (fun x => x.matchesWord w) with
  | none => exact absurd (TableRow.matchesWord_iff.mpr hw) (List.find?_eq_none.mp hf r hr)
  | some r' =>
    obtain ⟨hr', hw'⟩ := sound hf
    rw [supportedTable_disjoint r' hr' r hr
      (by rw [← hw, ← hw', BitVec.and_assoc, BitVec.and_assoc, BitVec.and_comm r.mask])]

theorem dispatch_eq_some_iff {w : Word} {op : Op} :
    dispatch w = some op ↔ ∃ r ∈ supportedTable, w &&& r.mask = r.bits ∧ r.op = op := by
  simp only [dispatch, Option.map_eq_some_iff, find_row_iff, and_assoc]

theorem dispatch_eq_none_iff {w : Word} :
    dispatch w = none ↔ ∀ r ∈ supportedTable, w &&& r.mask ≠ r.bits := by
  simp only [dispatch, Option.map_eq_none_iff, List.find?_eq_none, TableRow.matchesWord_iff, ne_eq]

theorem opcodeMask_toNat (w : Word) : (w &&& 0x7F#32).toNat = (w.extractLsb' 0 7).toNat := by
  rw [BitVec.toNat_and, BitVec.extractLsb'_toNat]
  exact Nat.and_two_pow_sub_one_eq_mod w.toNat 7

/-- Under the mask of six rows only opcode and funct3 remain, as the digits of one number (R73). -/
theorem opcodeFunct3Mask_toNat (w : Word) :
    (w &&& 0x707F#32).toNat = 2 ^ 12 * (w.extractLsb' 12 3).toNat + (w.extractLsb' 0 7).toNat := by
  have hop : (w.extractLsb' 0 7).toNat < 2 ^ 12 := (w.extractLsb' 0 7).isLt.trans (by decide)
  have hsplit : w &&& 0x707F#32 = ((w.extractLsb' 12 3).setWidth 32 <<< 12) ||| (w.extractLsb' 0 7).setWidth 32 := by
    ext k hk
    interval_cases k <;> simp
  have hfunct3 : (w.extractLsb' 12 3).toNat < 2 ^ 3 := (w.extractLsb' 12 3).isLt
  rw [hsplit, BitVec.toNat_or, BitVec.toNat_shiftLeft, BitVec.toNat_setWidth_of_le (by decide),
    BitVec.toNat_setWidth_of_le (by decide), Nat.shiftLeft_eq, Nat.mod_eq_of_lt (by omega), Nat.mul_comm,
    Nat.two_pow_add_eq_or_of_lt hop]

theorem opcodeMask_eq_iff {w c : Word} : w &&& 0x7F#32 = c ↔ (w.extractLsb' 0 7).toNat = c.toNat := by
  rw [← BitVec.toNat_inj, opcodeMask_toNat]

theorem opcodeFunct3Mask_eq_iff {w c : Word} {o f : Nat} (ho : o < 2 ^ 7) (hc : c.toNat = 2 ^ 12 * f + o) :
    w &&& 0x707F#32 = c ↔ (w.extractLsb' 0 7).toNat = o ∧ (w.extractLsb' 12 3).toNat = f := by
  have hop : (w.extractLsb' 0 7).toNat < 2 ^ 7 := (w.extractLsb' 0 7).isLt
  rw [← BitVec.toNat_inj, opcodeFunct3Mask_toNat, hc]
  omega

/-- The words of no row, by opcode w[6:0] and funct3 w[14:12] (R73). -/
theorem dispatch_eq_none_iff_fields {w : Word} :
    dispatch w = none ↔
      (w.extractLsb' 0 7).toNat ≠ 0x37 ∧ (w.extractLsb' 0 7).toNat ≠ 0x6F ∧
      ¬ ((w.extractLsb' 0 7).toNat = 0x67 ∧ (w.extractLsb' 12 3).toNat = 0) ∧
      ¬ ((w.extractLsb' 0 7).toNat = 0x63 ∧ (w.extractLsb' 12 3).toNat = 1) ∧
      ¬ ((w.extractLsb' 0 7).toNat = 0x03 ∧ (w.extractLsb' 12 3).toNat = 0) ∧
      ¬ ((w.extractLsb' 0 7).toNat = 0x03 ∧ (w.extractLsb' 12 3).toNat = 4) ∧
      ¬ ((w.extractLsb' 0 7).toNat = 0x23 ∧ (w.extractLsb' 12 3).toNat = 0) ∧
      ¬ ((w.extractLsb' 0 7).toNat = 0x13 ∧ (w.extractLsb' 12 3).toNat = 0) := by
  have row (c : Word) (o f : Nat) := opcodeFunct3Mask_eq_iff (w := w) (c := c) (o := o) (f := f)
  rw [← row 0x67#32 0x67 0 (by decide) (by decide), ← row 0x1063#32 0x63 1 (by decide) (by decide),
    ← row 0x03#32 0x03 0 (by decide) (by decide), ← row 0x4003#32 0x03 4 (by decide) (by decide),
    ← row 0x23#32 0x23 0 (by decide) (by decide), ← row 0x13#32 0x13 0 (by decide) (by decide)]
  simp [dispatch_eq_none_iff, supportedTable, opcodeMask_eq_iff]

theorem decode_of_dispatch {w : Word} {op : Op} (h : dispatch w = some op) : decode w = .ok (decodeAs op w) := by
  simp only [decode, h]

theorem decode_unsupported_iff {w : Word} :
    decode w = .error (.unsupportedInstruction w) ↔ dispatch w = none := by
  unfold decode
  split <;> simp [*]

/-- The encoding's own row, for all eight operations (R73, R82). -/
theorem dispatch_encode (i : Instr) : dispatch (encode i) = some i.op := by
  cases i with
  | lui rd imm20 => exact Laws.EncodedOp.lui rd imm20
  | jal rd imm => exact Laws.EncodedOp.jal rd imm
  | jalr rd rs1 imm => exact Laws.EncodedOp.jalr rd rs1 imm
  | bne rs1 rs2 imm => exact Laws.EncodedOp.bne rs1 rs2 imm
  | lb rd rs1 imm => exact Laws.EncodedOp.lb rd rs1 imm
  | lbu rd rs1 imm => exact Laws.EncodedOp.lbu rd rs1 imm
  | sb rs1 rs2 imm => exact Laws.EncodedOp.sb rs1 rs2 imm
  | addi rd rs1 imm => exact Laws.EncodedOp.addi rd rs1 imm

/-! ### The fields of the five formats (R63 to R68) -/

theorem fieldRd_eq_extractLsb' (w : Word) : fieldRd w = w.extractLsb' 7 5 := setWidth_bitsSlice w rfl (by decide)
theorem fieldRs1_eq_extractLsb' (w : Word) : fieldRs1 w = w.extractLsb' 15 5 := setWidth_bitsSlice w rfl (by decide)
theorem fieldRs2_eq_extractLsb' (w : Word) : fieldRs2 w = w.extractLsb' 20 5 := setWidth_bitsSlice w rfl (by decide)

theorem decodeI_imm (w : Word) : (decodeI w).imm = (w.extractLsb' 20 12).signExtend 32 := by
  rw [decodeI, signExtend_eq_signExtend_setWidth, setWidth_bitsSlice w rfl (by decide)]

theorem decodeU_imm20 (w : Word) : (decodeU w).imm20 = (w.extractLsb' 12 20).setWidth 32 := by
  rw [decodeU, ← setWidth_bitsSlice w rfl (by decide)]
  ext k hk
  interval_cases k <;> simp [bitsSlice_getElem]

theorem decodeS_imm (w : Word) :
    (decodeS w).imm = (w.extractLsb' 25 7 ++ w.extractLsb' 7 5).signExtend 32 := by
  rw [decodeS, signExtend_eq_signExtend_setWidth]
  refine congrArg (BitVec.signExtend (w := 12) 32) (BitVec.eq_of_getLsbD_eq fun k hk => ?_)
  simp only [BitVec.getLsbD_append]
  interval_cases k <;> simp [bitsSlice_getElem]

theorem decodeB_imm (w : Word) :
    (decodeB w).imm = (w.extractLsb' 31 1 ++ w.extractLsb' 7 1 ++ w.extractLsb' 25 6 ++
      w.extractLsb' 8 4 ++ 0#1).signExtend 32 := by
  rw [decodeB, signExtend_eq_signExtend_setWidth]
  refine congrArg (BitVec.signExtend (w := 13) 32) (BitVec.eq_of_getLsbD_eq fun k hk => ?_)
  simp only [BitVec.getLsbD_append]
  interval_cases k <;> simp [bitsSlice_getElem]

theorem decodeJ_imm (w : Word) :
    (decodeJ w).imm = (w.extractLsb' 31 1 ++ w.extractLsb' 12 8 ++ w.extractLsb' 20 1 ++
      w.extractLsb' 21 10 ++ 0#1).signExtend 32 := by
  rw [decodeJ, signExtend_eq_signExtend_setWidth]
  refine congrArg (BitVec.signExtend (w := 21) 32) (BitVec.eq_of_getLsbD_eq fun k hk => ?_)
  simp only [BitVec.getLsbD_append]
  interval_cases k <;> simp [bitsSlice_getElem]

/-! ### Decoding what was encoded (R82) -/

section
variable (op f3 : Word) (rd rs1 rs2 : RegIdx) (imm : Word)

theorem decodeI_encI (hop : op &&& 0x7F#32 = op) (hf : f3 &&& 7#32 = f3)
    (hfits : fitsSigned 12 imm = true) :
    decodeI (encI op f3 rd rs1 imm) = ⟨rd, rs1, imm⟩ := by
  rw [decodeI, IRecord.mk.injEq, ← hop, ← hf, fieldRd_eq_extractLsb', fieldRs1_eq_extractLsb']
  refine ⟨?_, ?_, Eq.trans ?_ (signExtend_of_fitsSigned (by decide) (by decide) hfits)⟩
  all_goals
    ext k hk
    interval_cases k <;> simp [encI, placeReg_getElem, bitsSlice_getElem, signExtend_getElem]

theorem decodeU_encU (hop : op &&& 0x7F#32 = op) (hrange : imm.toNat < 2 ^ 20) :
    decodeU (encU op rd imm) = ⟨rd, imm⟩ := by
  rw [decodeU, URecord.mk.injEq, ← hop, fieldRd_eq_extractLsb']
  refine ⟨?_, Eq.trans ?_ (bitsSlice_of_toNat_lt (by decide) hrange)⟩
  all_goals
    ext k hk
    interval_cases k <;> simp [encU, placeReg_getElem, bitsSlice_getElem]

theorem decodeS_encS (hop : op &&& 0x7F#32 = op) (hf : f3 &&& 7#32 = f3)
    (hfits : fitsSigned 12 imm = true) :
    decodeS (encS op f3 rs1 rs2 imm) = ⟨rs1, rs2, imm⟩ := by
  rw [decodeS, SRecord.mk.injEq, ← hop, ← hf, fieldRs1_eq_extractLsb', fieldRs2_eq_extractLsb']
  refine ⟨?_, ?_, Eq.trans ?_ (signExtend_of_fitsSigned (by decide) (by decide) hfits)⟩
  all_goals
    ext k hk
    interval_cases k <;> simp [encS, placeReg_getElem, bitsSlice_getElem, signExtend_getElem]

theorem decodeB_encB (hop : op &&& 0x7F#32 = op) (hf : f3 &&& 7#32 = f3)
    (hfits : fitsSigned 13 imm = true) (heven : isEven imm = true) :
    decodeB (encB op f3 rs1 rs2 imm) = ⟨rs1, rs2, imm⟩ := by
  have h0 : imm[0] = false := (isEven_iff imm).mp heven
  rw [decodeB, BRecord.mk.injEq, ← hop, ← hf, fieldRs1_eq_extractLsb', fieldRs2_eq_extractLsb']
  refine ⟨?_, ?_, Eq.trans ?_ (signExtend_of_fitsSigned (by decide) (by decide) hfits)⟩
  all_goals
    ext k hk
    interval_cases k <;> simp [encB, placeReg_getElem, bitsSlice_getElem, signExtend_getElem, h0]

theorem decodeJ_encJ (hop : op &&& 0x7F#32 = op)
    (hfits : fitsSigned 21 imm = true) (heven : isEven imm = true) :
    decodeJ (encJ op rd imm) = ⟨rd, imm⟩ := by
  have h0 : imm[0] = false := (isEven_iff imm).mp heven
  rw [decodeJ, JRecord.mk.injEq, ← hop, fieldRd_eq_extractLsb']
  refine ⟨?_, Eq.trans ?_ (signExtend_of_fitsSigned (by decide) (by decide) hfits)⟩
  all_goals
    ext k hk
    interval_cases k <;> simp [encJ, placeReg_getElem, bitsSlice_getElem, signExtend_getElem, h0]

end

/-- The decoder of an instruction's own operation reads back every operand its encoding admits (R70, R82). -/
theorem decodeAs_encode {i : Instr} (h : i.wf = true) : decodeAs i.op (encode i) = i := by
  cases i with
  | lui rd imm20 =>
    simp only [Instr.op, encode, decodeAs, decodeU_encU 0x37#32 rd imm20 (by decide) (of_decide_eq_true h)]
  | jal rd imm =>
    obtain ⟨hfits, heven⟩ := Bool.and_eq_true_iff.mp h
    simp only [Instr.op, encode, decodeAs, decodeJ_encJ 0x6F#32 rd imm (by decide) hfits heven]
  | jalr rd rs1 imm =>
    simp only [Instr.op, encode, decodeAs, decodeI_encI 0x67#32 0#32 rd rs1 imm (by decide) (by decide) h]
  | bne rs1 rs2 imm =>
    obtain ⟨hfits, heven⟩ := Bool.and_eq_true_iff.mp h
    simp only [Instr.op, encode, decodeAs, decodeB_encB 0x63#32 1#32 rs1 rs2 imm (by decide) (by decide) hfits heven]
  | lb rd rs1 imm =>
    simp only [Instr.op, encode, decodeAs, decodeI_encI 0x03#32 0#32 rd rs1 imm (by decide) (by decide) h]
  | lbu rd rs1 imm =>
    simp only [Instr.op, encode, decodeAs, decodeI_encI 0x03#32 4#32 rd rs1 imm (by decide) (by decide) h]
  | sb rs1 rs2 imm =>
    simp only [Instr.op, encode, decodeAs, decodeS_encS 0x23#32 0#32 rs1 rs2 imm (by decide) (by decide) h]
  | addi rd rs1 imm =>
    simp only [Instr.op, encode, decodeAs, decodeI_encI 0x13#32 0#32 rd rs1 imm (by decide) (by decide) h]

/-! ### Encoding what was decoded: the fields outside a row's mask are the whole rest of the word (R73, R82) -/

/-- A word is its bits outside a mask and the value it has under the mask. -/
theorem and_not_or_of_and_eq {w m c : Word} (h : w &&& m = c) : (w &&& ~~~m) ||| c = w := by
  rw [← h, ← BitVec.and_or_distrib_left, BitVec.or_comm, BitVec.or_not_self, BitVec.and_allOnes]

section
variable {w op f3 : Word}

theorem encI_decodeI (h : w &&& 0x707F#32 = (f3 <<< 12) ||| op) :
    encI op f3 (decodeI w).rd (decodeI w).rs1 (decodeI w).imm = w := by
  refine Eq.trans ?_ (and_not_or_of_and_eq h)
  rw [decodeI, fieldRd_eq_extractLsb', fieldRs1_eq_extractLsb']
  ext k hk
  interval_cases k <;> simp [encI, placeReg_getElem, bitsSlice_getElem, signExtend_getElem, Bool.or_assoc]

theorem encS_decodeS (h : w &&& 0x707F#32 = (f3 <<< 12) ||| op) :
    encS op f3 (decodeS w).rs1 (decodeS w).rs2 (decodeS w).imm = w := by
  refine Eq.trans ?_ (and_not_or_of_and_eq h)
  rw [decodeS, fieldRs1_eq_extractLsb', fieldRs2_eq_extractLsb']
  ext k hk
  interval_cases k <;> simp [encS, placeReg_getElem, bitsSlice_getElem, signExtend_getElem, Bool.or_assoc]

theorem encB_decodeB (h : w &&& 0x707F#32 = (f3 <<< 12) ||| op) :
    encB op f3 (decodeB w).rs1 (decodeB w).rs2 (decodeB w).imm = w := by
  refine Eq.trans ?_ (and_not_or_of_and_eq h)
  rw [decodeB, fieldRs1_eq_extractLsb', fieldRs2_eq_extractLsb']
  ext k hk
  interval_cases k <;> simp [encB, placeReg_getElem, bitsSlice_getElem, signExtend_getElem, Bool.or_assoc]

theorem encU_decodeU (h : w &&& 0x7F#32 = op) : encU op (decodeU w).rd (decodeU w).imm20 = w := by
  refine Eq.trans ?_ (and_not_or_of_and_eq h)
  rw [decodeU, fieldRd_eq_extractLsb']
  ext k hk
  interval_cases k <;> simp [encU, placeReg_getElem, bitsSlice_getElem]

theorem encJ_decodeJ (h : w &&& 0x7F#32 = op) : encJ op (decodeJ w).rd (decodeJ w).imm = w := by
  refine Eq.trans ?_ (and_not_or_of_and_eq h)
  rw [decodeJ, fieldRd_eq_extractLsb']
  ext k hk
  interval_cases k <;> simp [encJ, placeReg_getElem, bitsSlice_getElem, signExtend_getElem]

end

/-- Whichever row the word matches, its encoder puts the word together again (R73, R82). -/
theorem encode_decodeAs {w : Word} {op : Op} (h : dispatch w = some op) : encode (decodeAs op w) = w := by
  obtain ⟨r, hr, hw, rfl⟩ := dispatch_eq_some_iff.mp h
  simp only [supportedTable, List.mem_cons, List.not_mem_nil, or_false] at hr
  rcases hr with rfl | rfl | rfl | rfl | rfl | rfl | rfl | rfl
  · exact encU_decodeU hw
  · exact encJ_decodeJ hw
  · exact encI_decodeI hw
  · exact encB_decodeB hw
  · exact encI_decodeI hw
  · exact encI_decodeI hw
  · exact encS_decodeS hw
  · exact encI_decodeI hw

/-- Every decoder's immediate lies in its format's range (R70). -/
theorem wf_decodeAs (op : Op) (w : Word) : (decodeAs op w).wf = true := by
  cases op with
  | lui =>
    have hlt : (decodeU w).imm20.toNat < 2 ^ 20 := by
      rw [decodeU, bitsSlice_toNat w (by decide) (by decide)]
      exact Nat.mod_lt _ (by decide)
    exact decide_eq_true hlt
  | jal =>
    exact Bool.and_eq_true_iff.mpr
      ⟨fitsSigned_signExtend _ (by decide) (by decide), (isEven_iff _).mpr (Machine.decodeJ_imm_even w)⟩
  | bne =>
    exact Bool.and_eq_true_iff.mpr
      ⟨fitsSigned_signExtend _ (by decide) (by decide), (isEven_iff _).mpr (Machine.decodeB_imm_even w)⟩
  | _ => exact fitsSigned_signExtend _ (by decide) (by decide)

/-! ### A step on an unsupported word (R104) -/

open Machine in
theorem step_of_unsupported {s s1 : State} {w : Word} {e : DecodeError} (hbus : s.busOk = true)
    (hrun : s.failure = none) (hf : fetch s = .ok w s1) (hd : decode w = .error e) :
    step s = failStep s1 (.unsupportedInstruction w) .dispatch := by
  simp only [step, cycle, refusedDevice_none_iff_busOk.mpr hbus, hrun, hf, runWord, hd]

/-! ### The statements -/

/-- Settles O7: the encoding selects the instruction's own row, whose decoder reads back its operands. -/
theorem decodeOfEncodeIsTheInstruction : Obligations.DecodeOfEncodeIsTheInstruction := by
  intro i hwf
  rw [decode_of_dispatch (dispatch_encode i), decodeAs_encode hwf]

/-- Settles O8: the word matches the row that decoded it, and the row's fields make up the rest of the word. -/
theorem encodeOfDecodeIsTheWord : Obligations.EncodeOfDecodeIsTheWord := by
  intro w i hd
  obtain ⟨op, hop, rfl⟩ := Machine.decode_ok hd
  exact ⟨wf_decodeAs op w, encode_decodeAs hop⟩

/-- Settles O1, by the bits of the mask. -/
theorem maskHasLowBitsSet : Obligations.MaskHasLowBitsSet :=
  ⟨fun _ hn => mask_toNat (hn.trans (by decide)), fun _ hn => if_pos hn⟩

/-- Settles O2: the mask keeps the shifted value modulo a power of two. -/
theorem bitsSliceIsRightJustified : Obligations.BitsSliceIsRightJustified :=
  ⟨fun v _ _ hs he => ⟨bitsSlice_of_valid v hs he, bitsSlice_toNat v hs he⟩,
    fun v _ _ h => bitsSlice_of_invalid v h⟩

/-- Settles O3: below 32 bits the library's sign extension of the low bits, from 32 on the value itself. -/
theorem signExtendFillsFromTopBit : Obligations.SignExtendFillsFromTopBit :=
  ⟨fun v _ h hb => signExtend_toNat v h (hb.trans (by decide)), fun v _ h hb => signExtend_of_32_le v h hb⟩

/-- Settles O4, from the register fields and the immediate of each format. -/
theorem formatDecodersReadTheirFields : Obligations.FormatDecodersReadTheirFields := by
  intro w
  have hrd : fieldRd w = w.extractLsb' 7 5 := fieldRd_eq_extractLsb' w
  have hrs1 : fieldRs1 w = w.extractLsb' 15 5 := fieldRs1_eq_extractLsb' w
  have hrs2 : fieldRs2 w = w.extractLsb' 20 5 := fieldRs2_eq_extractLsb' w
  exact ⟨⟨hrd, hrs1, decodeI_imm w⟩, ⟨hrd, decodeU_imm20 w⟩, ⟨hrs1, hrs2, decodeS_imm w⟩,
    ⟨hrs1, hrs2, decodeB_imm w⟩, ⟨hrd, decodeJ_imm w⟩⟩

/-- Settles O5: the dispatch finds the row the word matches, wherever it stands in the table. -/
theorem matchingWordsSelectTheirRow : Obligations.MatchingWordsSelectTheirRow := by
  intro w
  have select (r : TableRow) (hr : r ∈ supportedTable) (hw : w &&& r.mask = r.bits) :
      decode w = .ok (decodeAs r.op w) := decode_of_dispatch (dispatch_eq_some_iff.mpr ⟨r, hr, hw, rfl⟩)
  exact ⟨select ⟨.lui, _, _⟩ (by decide), select ⟨.jal, _, _⟩ (by decide), select ⟨.jalr, _, _⟩ (by decide),
    select ⟨.bne, _, _⟩ (by decide), select ⟨.lb, _, _⟩ (by decide), select ⟨.lbu, _, _⟩ (by decide),
    select ⟨.sb, _, _⟩ (by decide), select ⟨.addi, _, _⟩ (by decide)⟩

/-- Settles O6: the list of section 5 is what the eight rows leave of the opcodes and of the eight funct3 values. -/
theorem unsupportedWordsAreExactlyTheList : Obligations.UnsupportedWordsAreExactlyTheList := by
  refine ⟨fun w => ?_, fun s s1 w hbus hrun hf hd => step_of_unsupported hbus hrun hf hd⟩
  have hfunct3 : (w.extractLsb' 12 3).toNat < 2 ^ 3 := (w.extractLsb' 12 3).isLt
  rw [decode_unsupported_iff, dispatch_eq_none_iff_fields]
  generalize (w.extractLsb' 0 7).toNat = opcode
  generalize (w.extractLsb' 12 3).toNat = funct3 at hfunct3 ⊢
  by_cases hlisted : opcode ∈ [0x03, 0x13, 0x23, 0x37, 0x63, 0x67, 0x6F]
  · simp only [List.mem_cons, List.not_mem_nil, or_false] at hlisted ⊢
    rcases hlisted with rfl | rfl | rfl | rfl | rfl | rfl | rfl <;> simp <;> omega
  · simp only [List.mem_cons, List.not_mem_nil, or_false, not_or] at hlisted ⊢
    simp [hlisted]

/-- Settles O9, by evaluating the decoder on the eleven words. -/
theorem writtenOutWordsDecode : Obligations.WrittenOutWordsDecode := by
  unfold Obligations.WrittenOutWordsDecode
  decide

end Sys2Proof
end

section
/-! PROOFS, family 40_step_and_dispatch: the word that four RAM bytes are fetched as, and the step that has decoded its
word; then the statements about what a step runs and what a failed one leaves. -/

namespace Sys2Proof.Machine

/-- A word is assembled again from its four bytes, the low one first (R45). -/
theorem wordOfBytes_extractLsb' (w : Word) :
    wordOfBytes (w.extractLsb' 0 8) (w.extractLsb' 8 8) (w.extractLsb' 16 8) (w.extractLsb' 24 8) = w := by
  have high : w.extractLsb' 24 8 ++ w.extractLsb' 16 8 = w.extractLsb' 16 16 :=
    BitVec.extractLsb'_append_extractLsb'_eq_extractLsb' rfl
  have upper : w.extractLsb' 16 16 ++ w.extractLsb' 8 8 = w.extractLsb' 8 24 :=
    BitVec.extractLsb'_append_extractLsb'_eq_extractLsb' rfl
  have whole : w.extractLsb' 8 24 ++ w.extractLsb' 0 8 = w.extractLsb' 0 32 :=
    BitVec.extractLsb'_append_extractLsb'_eq_extractLsb' rfl
  rw [wordOfBytes, high, upper, whole, BitVec.extractLsb'_eq_self]

/-- A word whose bytes stand in RAM at pc .. pc+3 is what the fetch answers, and the fetch changes nothing (R45). -/
theorem fetch_of_ramWord {s : State} {w : Word}
    (h : ∀ k, k < 4 → s.ramByte (s.pc + BitVec.ofNat 32 k) = some (w.extractLsb' (8 * k) 8)) :
    fetch s = .ok w s := by
  have h0 : s.ramByte s.pc = some (w.extractLsb' 0 8) := by simpa using h 0 (by decide)
  have hfetch := fetchIsLittleEndian s _ _ _ _ h0 (h 1 (by decide)) (h 2 (by decide)) (h 3 (by decide))
  exact hfetch.trans (congrArg (BusResult.ok · s) (wordOfBytes_extractLsb' w))

/-- The step of a Core that is not halted, on an accepted bus, whose fetched word decodes (R85 to R88). -/
theorem step_of_decoded {s s1 : State} {w : Word} {i : Instr} (hbus : s.busOk = true) (hrun : s.failure = none)
    (hf : fetch s = .ok w s1) (hd : decode w = .ok i) : step s = exec i s1 := by
  simp only [step, cycle, refusedDevice_none_iff_busOk.mpr hbus, hrun, hf, runWord, hd]

/-! ### The statements -/

/-- Settles O39: a failed step sets the latch and at most counts draws, whichever phase failed. -/
theorem failedStepChangesNothing : Obligations.FailedStepChangesNothing := by
  intro s t f h
  obtain ⟨-, -, n, rfl⟩ := step_failed h
  exact ⟨rfl, rfl, rfl⟩

/-- Settles O35: fetch and decode lead to the handler; where the word's bytes are RAM's, the fetch leaves the state
itself. -/
theorem stepRunsTheDecodedInstruction : Obligations.StepRunsTheDecodedInstruction := by
  refine ⟨fun s s1 w i hbus hrun hf hd => ?_, fun s w i hbus hrun hram hd => ?_⟩
  · obtain ⟨n, -, hs1⟩ := fetch_ok_after hf
    exact ⟨step_of_decoded hbus hrun hf hd, n, hs1⟩
  · exact step_of_decoded hbus hrun (fetch_of_ramWord hram) hd

end Sys2Proof.Machine
end

section
/-! PROOFS, family 41_integer_computational: what an instruction that writes one register and then the pc leaves, and the
value of LUI's immediate; then the statements about ADDI and LUI. -/

namespace Sys2Proof.Machine

/-- The whole effect of an instruction whose handler only writes `v` to rd and then `p` to the pc (R27, R50). -/
theorem exec_completes_of_setReg_setPc {i : Instr} {s : State} {rd : RegIdx} {v p : Word}
    (h : exec i s = .next ((s.setReg rd v).setPc p)) :
    ∃ t, exec i s = .next t ∧ t.reg rd = v ∧ t.pc = p ∧ (∀ r, r ≠ rd → t.reg r = s.reg r) ∧
      t.failure = s.failure ∧ t.devices = s.devices ∧ t.draws = s.draws :=
  ⟨_, h, State.reg_setReg_same s rd v, rfl, fun _ hr => State.reg_setReg_other s rd v hr, rfl, rfl, rfl⟩

theorem exec_addi (rd rs1 : RegIdx) (imm : Word) (s : State) :
    exec (.addi rd rs1 imm) s = .next ((s.setReg rd (s.reg rs1 + imm)).setPc (s.pc + 4#32)) := rfl

theorem exec_lui (rd : RegIdx) (imm20 : Word) (s : State) :
    exec (.lui rd imm20) s = .next ((s.setReg rd (imm20 <<< 12)).setPc (s.pc + 4#32)) := rfl

/-- The upper immediate is the word with its low 12 bits cleared (R94). -/
theorem upperField_shiftLeft (w : Word) :
    (w.extractLsb' 12 20).setWidth 32 <<< 12 = w &&& 0xFFFFF000#32 := by
  ext k hk
  interval_cases k <;> simp

/-! ### The statements -/

/-- Settles O12: the I-format decoder reads the operands; the handler writes the sum, then pc + 4. -/
theorem addiAddsTheImmediate : Obligations.AddiAddsTheImmediate := by
  refine ⟨fun w hw => ?_, fun rd rs1 imm s => exec_completes_of_setReg_setPc (exec_addi rd rs1 imm s)⟩
  obtain ⟨-, -, -, -, -, -, -, hdecode⟩ := matchingWordsSelectTheirRow w
  obtain ⟨⟨hrd, hrs1, himm⟩, -⟩ := formatDecodersReadTheirFields w
  rw [hdecode hw, hrd, hrs1, himm]

/-- Settles O13: the U-format decoder reads the operands; the handler writes the shifted field, then pc + 4. -/
theorem luiLoadsTheUpperBits : Obligations.LuiLoadsTheUpperBits := by
  refine ⟨fun w hw => ⟨?_, upperField_shiftLeft w⟩,
    fun rd imm20 s => exec_completes_of_setReg_setPc (exec_lui rd imm20 s)⟩
  obtain ⟨hdecode, -⟩ := matchingWordsSelectTheirRow w
  obtain ⟨-, ⟨hrd, himm⟩, -⟩ := formatDecodersReadTheirFields w
  rw [hdecode hw, hrd, himm]

end Sys2Proof.Machine
end

section
/-! PROOFS, family 42_control_transfer: each handler in the form its statement names, and the bits of JALR's target; then
the statements about JAL, JALR and BNE. -/

namespace Sys2Proof.Machine

theorem exec_jal (rd : RegIdx) (imm : Word) (s : State) :
    exec (.jal rd imm) s = .next ((s.setReg rd (s.pc + 4#32)).setPc (s.pc + imm)) := rfl

/-- The sum is taken in the state before the link is written, also when rd = rs1 (R97). -/
theorem exec_jalr (rd rs1 : RegIdx) (imm : Word) (s : State) :
    exec (.jalr rd rs1 imm) s = .next ((s.setReg rd (s.pc + 4#32)).setPc (clearBit0 (s.reg rs1 + imm))) := rfl

/-- Taken or not, a BNE writes the pc and nothing else (R98). -/
theorem exec_bne (rs1 rs2 : RegIdx) (imm : Word) (s : State) :
    exec (.bne rs1 rs2 imm) s =
      .next (s.setPc (if s.reg rs1 ≠ s.reg rs2 then s.pc + imm else s.pc + 4#32)) := by
  by_cases hd : s.reg rs1 = s.reg rs2
  · simp [exec, execBne, registersDiffer, hd, State.advance]
  · simp [exec, execBne, registersDiffer, hd, pcPlusImm]

/-- Clearing bit 0 keeps every other bit (R97). -/
theorem clearBit0_getLsbD_of_pos (x : Word) {k : Nat} (hk : 0 < k) : (clearBit0 x).getLsbD k = x.getLsbD k := by
  have clearMask : 0xFFFFFFFE#32 = ~~~1#32 := by decide
  have inRange : x.getLsbD k = true → k < 32 := BitVec.lt_of_getLsbD
  rw [clearBit0, clearMask, BitVec.getLsbD_and, BitVec.getLsbD_not, BitVec.getLsbD_one]
  simpa [hk.ne'] using inRange

/-! ### The statements -/

/-- Settles O14: the J-format decoder reads the operands; the handler writes the link, then the jump's target. -/
theorem jalLinksAndJumps : Obligations.JalLinksAndJumps := by
  refine ⟨fun w hw => ?_, fun rd imm s => exec_completes_of_setReg_setPc (exec_jal rd imm s)⟩
  obtain ⟨-, hdecode, -⟩ := matchingWordsSelectTheirRow w
  obtain ⟨-, -, -, -, hrd, himm⟩ := formatDecodersReadTheirFields w
  rw [hdecode hw, hrd, himm]

/-- Settles O15: the I-format decoder reads the operands; the handler writes the link, then the old sum with bit 0
cleared. -/
theorem jalrLinksAndJumpsToRegister : Obligations.JalrLinksAndJumpsToRegister := by
  refine ⟨fun w hw => ?_, fun rd rs1 imm s => ?_⟩
  · obtain ⟨-, -, hdecode, -⟩ := matchingWordsSelectTheirRow w
    obtain ⟨⟨hrd, hrs1, himm⟩, -⟩ := formatDecodersReadTheirFields w
    rw [hdecode hw, hrd, hrs1, himm]
  · obtain ⟨t, hexec, hlink, hpc, hframe⟩ := exec_completes_of_setReg_setPc (exec_jalr rd rs1 imm s)
    refine ⟨t, hexec, hlink, ?_, fun k hk => ?_, hframe⟩
    · rw [hpc, clearBit0_even]
    · rw [hpc, clearBit0_getLsbD_of_pos _ hk]

/-- Settles O16: the B-format decoder reads the operands; the handler's one write is the pc, by the comparison. -/
theorem bneBranchesWhenRegistersDiffer : Obligations.BneBranchesWhenRegistersDiffer := by
  refine ⟨fun w hw => ?_, fun rs1 rs2 imm s =>
    ⟨_, exec_bne rs1 rs2 imm s, fun hne => if_pos hne, fun heq => if_neg (not_not_intro heq), rfl, rfl, rfl, rfl⟩⟩
  obtain ⟨-, -, -, hdecode, -⟩ := matchingWordsSelectTheirRow w
  obtain ⟨-, -, -, ⟨hrs1, hrs2, himm⟩, -⟩ := formatDecodersReadTheirFields w
  rw [hdecode hw, hrs1, hrs2, himm]

end Sys2Proof.Machine
end

section
/-! PROOFS, family 43_load_store: each handler by the answer of its one bus access, and the write of the found device by
its kind, its place and its storage; then the statements about LB, LBU and SB. -/

namespace Sys2Proof.Machine

/-! ### The loads by the answer of their one read (R99 to R101, R103) -/

theorem exec_lb (rd rs1 : RegIdx) (imm : Word) (s : State) :
    exec (.lb rd rs1 imm) s = loadByte (BitVec.signExtend 32) rd rs1 imm s :=
  congrArg (loadByte · rd rs1 imm s) (funext sextByte_eq_signExtend)

theorem exec_lbu (rd rs1 : RegIdx) (imm : Word) (s : State) :
    exec (.lbu rd rs1 imm) s = loadByte (BitVec.setWidth 32) rd rs1 imm s := rfl

section
variable {extend : Byte → Word} {rd rs1 : RegIdx} {imm : Word} {s s1 : State}

/-- The whole effect of a load whose read answers: rd and the pc are written, and only the draws are the read's. -/
theorem loadByte_completes {b : Byte} (h : busRead s (s.reg rs1 + imm) = .ok b s1) :
    ∃ t, loadByte extend rd rs1 imm s = .next t ∧ t.reg rd = extend b ∧ t.pc = s.pc + 4#32 ∧
      (∀ r, r ≠ rd → t.reg r = s.reg r) ∧ t.failure = s.failure ∧ t.devices = s.devices ∧ t.draws = s1.draws := by
  obtain ⟨n, -, rfl⟩ := busRead_ok_after h
  exact ⟨_, loadByte_of_read_ok h, State.reg_setReg_same _ rd _, rfl, fun _ hr => State.reg_setReg_other _ rd _ hr,
    rfl, rfl, rfl⟩

/-- A load whose read fails stops with that failure and writes nothing. -/
theorem loadByte_stops {k : FailureKind} (h : busRead s (s.reg rs1 + imm) = .fail k s1) :
    ∃ f t, loadByte extend rd rs1 imm s = .fault (.stepFailed f t) ∧ f.kind = k ∧
      t.regs = s.regs ∧ t.pc = s.pc ∧ t.devices = s.devices := by
  obtain ⟨-, n, -, rfl⟩ := busRead_fail_after h
  exact ⟨_, _, loadByte_of_read_fail h, rfl, rfl, rfl, rfl⟩

end

/-- Where RAM answers, a read gives the byte at the address's offset and draws no free value (R38, D5). -/
theorem busRead_of_ram {s : State} {a base : Word} {cell : MemoryCell}
    (hf : findDevice s.devices a = some ⟨base, .ram cell⟩) :
    busRead s a = .ok (cell.bytes.read (a.toNat - base.toNat)) s :=
  busRead_of_ramByte (by simp only [State.ramByte, hf, Device.offset])

/-! ### The store by the answer of its one write (R102, R103) -/

section
variable {rs1 rs2 : RegIdx} {imm : Word} {s s1 : State}

theorem exec_sb_of_write_ok (h : busWrite s (s.reg rs1 + imm) ((s.reg rs2).extractLsb' 0 8) = .ok () s1) :
    exec (.sb rs1 rs2 imm) s = .next s1.advance := by
  rw [← lowByte_eq_extractLsb'] at h
  simp only [exec, execSb, basePlusImm, h]

theorem exec_sb_of_write_fail {k : FailureKind}
    (h : busWrite s (s.reg rs1 + imm) ((s.reg rs2).extractLsb' 0 8) = .fail k s1) :
    exec (.sb rs1 rs2 imm) s = failStep s1 k .store := by
  rw [← lowByte_eq_extractLsb'] at h
  simp only [exec, execSb, basePlusImm, h]

/-- The write behind a store that goes on. -/
theorem exec_sb_next {t : State} (h : exec (.sb rs1 rs2 imm) s = .next t) :
    ∃ s1, busWrite s (s.reg rs1 + imm) ((s.reg rs2).extractLsb' 0 8) = .ok () s1 ∧ t = s1.advance := by
  rw [← lowByte_eq_extractLsb']
  exact execSb_next h

end

/-- A write where a console answers appends the byte to its output (R39, D10). -/
theorem busWrite_of_console {s : State} {a base size : Word} {out : List Byte} (b : Byte)
    (hf : findDevice s.devices a = some ⟨base, .console size out⟩) :
    busWrite s a b = .ok () { s with
      devices := replaceFound s.devices a ⟨base, .console size (out ++ [b])⟩ } := by
  simp only [busWrite, hf, Device.write, findDevice_contains hf, if_true]

/-! ### What a write leaves of each device (R31, R43) -/

/-- Only the place of the first device holding the address is replaced. -/
theorem replaceFound_getElem?_of_findIdx?_ne {devices : List Device} {a : Word} {d' : Device} {k : Nat}
    (h : devices.findIdx? (fun e => e.contains a) ≠ some k) : (replaceFound devices a d')[k]? = devices[k]? := by
  induction devices generalizing k with
  | nil => rfl
  | cons e rest ih =>
    by_cases he : e.contains a = true
    · cases k with
      | zero => simp [List.findIdx?_cons, he] at h
      | succ k => simp [replaceFound, he]
    · cases k with
      | zero => simp [replaceFound, he]
      | succ k =>
        have hrest : rest.findIdx? (fun e => e.contains a) ≠ some k := by simpa [List.findIdx?_cons, he] using h
        simpa [replaceFound, he] using ih hrest

/-- A device that takes a byte keeps its storage at every offset but the written one (R31). -/
theorem Device.write_stored_other {d d' : Device} {a : Word} {b : Byte} {n n' o : Nat}
    (h : d.write a b n = (.ok d', n')) (ho : o ≠ d.offset a) : d'.stored o = d.stored o := by
  obtain ⟨-, ⟨cell, hk, -, -, rfl⟩ | ⟨size, out, hk, -, rfl⟩ | ⟨size, -, -, rfl, -⟩⟩ := Device.write_ok h
  · simp only [Device.stored, hk, Memory.read_write_other ho]
  · simp only [Device.stored, hk]
  · rfl

/-- Place by place, a bus write keeps every device but the first holding the address, and of that one's storage every
offset but the address's. -/
theorem busWrite_device_frame {s s1 : State} {a : Word} {b : Byte} {u : Unit} (h : busWrite s a b = .ok u s1) {k : Nat}
    {d : Device} (hk : s.devices[k]? = some d) :
    ∃ d', s1.devices[k]? = some d' ∧
      (s.devices.findIdx? (fun e => e.contains a) ≠ some k → d' = d) ∧
      (∀ o, o ≠ d.offset a → d'.stored o = d.stored o) := by
  obtain ⟨found, written, n, hf, hw, rfl⟩ := busWrite_ok h
  rcases replaceFound_getElem? (d' := written) hf hk with hsame | ⟨rfl, hnew⟩
  · exact ⟨d, hsame, fun _ => rfl, fun _ _ => rfl⟩
  · refine ⟨written, hnew, fun hne => ?_, fun o ho => Device.write_stored_other hw ho⟩
    have hkept := (replaceFound_getElem?_of_findIdx?_ne (d' := written) hne).trans hk
    exact Option.some.inj (hnew.symm.trans hkept)

/-! ### The statements -/

/-- Settles O17: the I-format decoder reads the operands; the load does what its one read answers. -/
theorem lbLoadsTheSignExtendedByte : Obligations.LbLoadsTheSignExtendedByte := by
  refine ⟨fun w hw => ?_, fun rd rs1 imm s s1 b h => ?_, fun rd rs1 imm s s1 k h => ?_⟩
  · obtain ⟨-, -, -, -, hdecode, -⟩ := matchingWordsSelectTheirRow w
    obtain ⟨⟨hrd, hrs1, himm⟩, -⟩ := formatDecodersReadTheirFields w
    rw [hdecode hw, hrd, hrs1, himm]
  · rw [exec_lb]
    exact loadByte_completes h
  · rw [exec_lb]
    exact loadByte_stops h

/-- Settles O18: the I-format decoder reads the operands; the load does what its one read answers. -/
theorem lbuLoadsTheZeroExtendedByte : Obligations.LbuLoadsTheZeroExtendedByte := by
  refine ⟨fun w hw => ?_, fun rd rs1 imm s s1 b h => loadByte_completes h,
    fun rd rs1 imm s s1 k h => loadByte_stops h⟩
  obtain ⟨-, -, -, -, -, hdecode, -⟩ := matchingWordsSelectTheirRow w
  obtain ⟨⟨hrd, hrs1, himm⟩, -⟩ := formatDecodersReadTheirFields w
  rw [hdecode hw, hrd, hrs1, himm]

/-- Settles O19: the S-format decoder reads the operands; the store does what its one write answers, and no write
changes a register, the pc or the latch. -/
theorem sbStoresTheLowByte : Obligations.SbStoresTheLowByte := by
  refine ⟨fun w hw => ?_, fun rs1 rs2 imm s s1 h => ?_, fun rs1 rs2 imm s s1 k h => ?_⟩
  · obtain ⟨-, -, -, -, -, -, hdecode, -⟩ := matchingWordsSelectTheirRow w
    obtain ⟨-, -, ⟨hrs1, hrs2, himm⟩, -⟩ := formatDecodersReadTheirFields w
    rw [hdecode hw, hrs1, hrs2, himm]
  · obtain ⟨hregs, hpc, hfail, -⟩ := busWrite_keeps h
    exact ⟨_, exec_sb_of_write_ok h, hregs, congrArg (· + 4#32) hpc, hfail, rfl, rfl⟩
  · obtain ⟨-, n, -, rfl⟩ := busWrite_fail h
    exact ⟨_, _, exec_sb_of_write_fail h, rfl, rfl, rfl, rfl⟩

/-- Settles O20: RAM answers the read with its byte, and both loads complete with it. -/
theorem loadsFromRamComplete : Obligations.LoadsFromRamComplete := by
  intro rd rs1 imm s base cell hf
  have hread := busRead_of_ram hf
  rw [exec_lb, exec_lbu]
  exact ⟨loadByte_completes hread, loadByte_completes hread⟩

/-- Settles O22: the write goes to the first device holding the address, and replaces it in its place. -/
theorem storesToRamAndConsoleComplete : Obligations.StoresToRamAndConsoleComplete := by
  rintro rs1 rs2 imm s earlier later ⟨base, kind⟩ hs hd he
  have hf := hs ▸ findDevice_append he hd
  refine ⟨?_, ?_⟩
  · rintro cell rfl
    rw [exec_sb_of_write_ok (busWrite_of_ram _ hf), hs, replaceFound_append he hd]
    rfl
  · rintro size out rfl
    rw [exec_sb_of_write_ok (busWrite_of_console _ hf), hs, replaceFound_append he hd]
    rfl

/-- Settles O27: what the store's one write leaves, of the bus view and of each device. -/
theorem storeFrame : Obligations.StoreFrame := by
  intro rs1 rs2 imm s t h
  obtain ⟨s1, hw, rfl⟩ := exec_sb_next h
  obtain ⟨hregs, -, hfail, -⟩ := busWrite_keeps hw
  have hview (a : Word) : s1.advance.ramByte a = s1.ramByte a := State.ramByte_congr rfl a
  exact ⟨hregs, hfail, fun a ha => (hview a).trans (busWrite_ramByte_other hw ha),
    fun hm hram => (hview _).trans (busWrite_ramByte_same hm hram hw), fun k d hk => busWrite_device_frame hw hk⟩

/-- Settles O24: at an unmapped address both bus accesses fail, so the instruction stops with that failure. -/
theorem unmappedLoadsAndStoresFail : Obligations.UnmappedLoadsAndStoresFail := by
  intro r rs1 imm s hout
  obtain ⟨hread, hwrite⟩ := unmappedAccessIsNeverDefaulted s _ ((s.reg r).extractLsb' 0 8) hout
  exact ⟨loadByte_of_read_fail hread, loadByte_of_read_fail hread, exec_sb_of_write_fail hwrite⟩

end Sys2Proof.Machine
end

section
/-! PROOFS, family 60_exceptions: why one bus access fails, which read of a fetch fails first, and how an instruction
stops; then the statements about the failures a step can raise. -/

namespace Sys2Proof.Machine

/-! ### The failure of one bus access (R111, R117) -/

/-- How one access of `a` may fail: no device is there, or the device found fails by itself, being of a kind that can. -/
def AccessFailure (devices : List Device) (a : Word) (canFail : KindName → Prop) (k : FailureKind) : Prop :=
  (k = .noDeviceAtAddress a ∧ findDevice devices a = none) ∨
    (k = .deviceFailure a ∧ ∃ d, findDevice devices a = some d ∧ canFail d.kindName)

/-- No access fails in one of the two ways of a host's direct call (R112, R113). -/
theorem AccessFailure.kind_eq {devices : List Device} {a : Word} {canFail : KindName → Prop} {k : FailureKind}
    (h : AccessFailure devices a canFail k) : k = .noDeviceAtAddress a ∨ k = .deviceFailure a := by
  obtain ⟨hk, -⟩ | ⟨hk, -⟩ := h
  · exact .inl hk
  · exact .inr hk

/-- A read fails where no device is, or by the answer of a console or of another kind: RAM always answers (D5). -/
theorem busRead_fail_why {s s1 : State} {a : Word} {k : FailureKind} (h : busRead s a = .fail k s1) :
    AccessFailure s.devices a (· ≠ .ram) k := by
  rcases busRead_cases s a with ⟨hf, e⟩ | ⟨_, _, -, e⟩ | ⟨d, hf, hd, ⟨_, e⟩ | e⟩
  · cases e.symm.trans h
    exact .inl ⟨rfl, hf⟩
  · cases e.symm.trans h
  · cases e.symm.trans h
  · cases e.symm.trans h
    exact .inr ⟨rfl, d, hf, hd⟩

/-- A write fails where no device is, or where a device of another kind does not accept it: RAM and the console always
take the byte (D5, D10). -/
theorem busWrite_fail_why {s s1 : State} {a : Word} {b : Byte} {k : FailureKind} (h : busWrite s a b = .fail k s1) :
    AccessFailure s.devices a (· = .other) k := by
  cases hf : findDevice s.devices a with
  | none =>
    cases (busWrite_of_unmapped b hf).symm.trans h
    exact .inl ⟨rfl, hf⟩
  | some d =>
    obtain ⟨base, kind⟩ := d
    cases kind with
    | ram cell => cases (busWrite_of_ram b hf).symm.trans h
    | console size out => cases (busWrite_of_console b hf).symm.trans h
    | other size =>
      rw [busWrite_of_other b hf] at h
      split at h
      · cases h
      · cases h
        exact .inr ⟨rfl, _, hf, rfl⟩

/-- A read that answers found a device. -/
theorem busRead_ok_mapped {s s1 : State} {a : Word} {b : Byte} (h : busRead s a = .ok b s1) :
    findDevice s.devices a ≠ none := by
  intro hf
  cases (busRead_of_unmapped hf).symm.trans h

/-! ### The read that ends a fetch (R46, D6) -/

/-- A read and what follows it fail by the read, or after a read that found a device and only counted draws. -/
theorem busRead_andThen_fail {α : Type} {s s1 : State} {a : Word} {f : Byte → State → BusResult α} {k : FailureKind}
    (h : (busRead s a).andThen f = .fail k s1) :
    AccessFailure s.devices a (· ≠ .ram) k ∨
      (findDevice s.devices a ≠ none ∧ ∃ b n, f b { s with draws := n } = .fail k s1) := by
  rcases BusResult.andThen_fail h with hr | ⟨b, _, hr, hrest⟩
  · exact .inl (busRead_fail_why hr)
  · obtain ⟨n, -, rfl⟩ := busRead_ok_after hr
    exact .inr ⟨busRead_ok_mapped hr, b, n, hrest⟩

/-- A fetch fails by one of its four reads, and every address before that one is mapped. -/
theorem fetch_fail_first {s s1 : State} {k : FailureKind} (h : fetch s = .fail k s1) :
    ∃ j : Nat, j < 4 ∧ (∀ i : Nat, i < j → findDevice s.devices (s.pc + BitVec.ofNat 32 i) ≠ none) ∧
      AccessFailure s.devices (s.pc + BitVec.ofNat 32 j) (· ≠ .ram) k := by
  have hpc : s.pc + BitVec.ofNat 32 0 = s.pc := BitVec.add_zero _
  rcases busRead_andThen_fail h with hk | ⟨m0, _, _, h⟩
  · exact ⟨0, by decide, fun i hi => absurd hi (Nat.not_lt_zero i), hpc.symm ▸ hk⟩
  have before1 : ∀ i : Nat, i < 1 → findDevice s.devices (s.pc + BitVec.ofNat 32 i) ≠ none := by
    intro i hi
    rwa [Nat.lt_one_iff.mp hi, hpc]
  rcases busRead_andThen_fail h with hk | ⟨m1, _, _, h⟩
  · exact ⟨1, by decide, before1, hk⟩
  have before2 := Nat.forall_lt_succ_right.mpr ⟨before1, m1⟩
  rcases busRead_andThen_fail h with hk | ⟨m2, _, _, h⟩
  · exact ⟨2, by decide, before2, hk⟩
  have before3 := Nat.forall_lt_succ_right.mpr ⟨before2, m2⟩
  rcases busRead_andThen_fail h with hk | ⟨-, _, _, h⟩
  · exact ⟨3, by decide, before3, hk⟩
  · cases h

/-! ### The instructions that stop (R103) -/

/-- A load that stops does so by its one read. -/
theorem loadByte_fault_why {extend : Byte → Word} {rd rs1 : RegIdx} {imm : Word} {s t : State} {f : Failure}
    (h : loadByte extend rd rs1 imm s = .fault (.stepFailed f t)) :
    f.phase = .load ∧ AccessFailure s.devices (s.reg rs1 + imm) (· ≠ .ram) f.kind := by
  cases hr : busRead s (basePlusImm s rs1 imm) with
  | ok b s1 => cases (loadByte_of_read_ok hr).symm.trans h
  | fail k s1 =>
    cases (loadByte_of_read_fail hr).symm.trans h
    exact ⟨rfl, busRead_fail_why hr⟩

/-- A store that stops does so by its one write. -/
theorem exec_sb_fault_why {rs1 rs2 : RegIdx} {imm : Word} {s t : State} {f : Failure}
    (h : exec (.sb rs1 rs2 imm) s = .fault (.stepFailed f t)) :
    f.phase = .store ∧ AccessFailure s.devices (s.reg rs1 + imm) (· = .other) f.kind := by
  cases hw : busWrite s (s.reg rs1 + imm) ((s.reg rs2).extractLsb' 0 8) with
  | ok u s1 => cases (exec_sb_of_write_ok hw).symm.trans h
  | fail k s1 =>
    cases (exec_sb_of_write_fail hw).symm.trans h
    exact ⟨rfl, busWrite_fail_why hw⟩

/-- Only the loads and the store stop, each by its one bus access. -/
theorem exec_fault_why {i : Instr} {s t : State} {f : Failure} (h : exec i s = .fault (.stepFailed f t)) :
    (f.phase = .load ∧ ∃ rd rs1 imm, (i = .lb rd rs1 imm ∨ i = .lbu rd rs1 imm) ∧
      AccessFailure s.devices (s.reg rs1 + imm) (· ≠ .ram) f.kind) ∨
    (f.phase = .store ∧ ∃ rs1 rs2 imm, i = .sb rs1 rs2 imm ∧
      AccessFailure s.devices (s.reg rs1 + imm) (· = .other) f.kind) := by
  cases i with
  | lb rd rs1 imm =>
    obtain ⟨hp, hk⟩ := loadByte_fault_why h
    exact .inl ⟨hp, rd, rs1, imm, .inl rfl, hk⟩
  | lbu rd rs1 imm =>
    obtain ⟨hp, hk⟩ := loadByte_fault_why h
    exact .inl ⟨hp, rd, rs1, imm, .inr rfl, hk⟩
  | sb rs1 rs2 imm =>
    obtain ⟨hp, hk⟩ := exec_sb_fault_why h
    exact .inr ⟨hp, rs1, rs2, imm, rfl, hk⟩
  | _ => cases h

/-- A word that does not decode is rejected with the word itself (R76, R104). -/
theorem decode_error {w : Word} {e : DecodeError} (h : decode w = .error e) : e = .unsupportedInstruction w := by
  unfold decode at h
  split at h
  · cases h
  · exact (Except.error.inj h).symm

/-! ### The statements -/

/-- Settles O42: the phase in which the step failed, and there the bus access or the word that failed it; the reads
before only counted draws. -/
theorem failuresByPhase : Obligations.FailuresByPhase := by
  intro s t f h
  rcases step_cases s with ⟨_, -, e⟩ | ⟨-, _, -, e⟩ | ⟨-, -, hphase⟩
  · cases e.symm.trans h
  · cases e.symm.trans h
  rcases hphase with ⟨k, n, -, hfetch, e⟩ | ⟨w, n, _, -, hfetch, hdec, e⟩ | ⟨w, n, i, -, hfetch, hdec, e⟩
  · cases e.symm.trans h
    exact .inl ⟨rfl, fetch_fail_first hfetch⟩
  · cases e.symm.trans h
    cases decode_error hdec
    exact .inr (.inl ⟨rfl, w, _, hfetch, hdec, rfl⟩)
  · rcases exec_fault_why (e.symm.trans h) with ⟨hp, rd, rs1, imm, hi, hk⟩ | ⟨hp, rs1, rs2, imm, rfl, hk⟩
    · have hload : decode w = .ok (.lb rd rs1 imm) ∨ decode w = .ok (.lbu rd rs1 imm) := by
        rcases hi with rfl | rfl
        · exact .inl hdec
        · exact .inr hdec
      exact .inr (.inr (.inl ⟨hp, w, _, rd, rs1, imm, hfetch, hload, hk⟩))
    · exact .inr (.inr (.inr ⟨hp, w, _, rs1, rs2, imm, hfetch, hdec, hk⟩))

/-- Settles O41: in every phase the failure is that of a bus access or the unsupported word. -/
theorem stepNeverRaisesHostOnlyFailures : Obligations.StepNeverRaisesHostOnlyFailures := by
  intro s t f h
  have hkind : (∃ a, f.kind = .noDeviceAtAddress a ∨ f.kind = .deviceFailure a) ∨
      ∃ w, f.kind = .unsupportedInstruction w := by
    rcases failuresByPhase s t f h with ⟨-, j, -, -, hk⟩ | ⟨-, w, _, -, -, hk⟩ |
      ⟨-, _, _, _, _, _, -, -, hk⟩ | ⟨-, _, _, _, _, _, -, -, hk⟩
    · exact .inl ⟨_, AccessFailure.kind_eq (canFail := (· ≠ .ram)) hk⟩
    · exact .inr ⟨w, hk⟩
    · exact .inl ⟨_, AccessFailure.kind_eq (canFail := (· ≠ .ram)) hk⟩
    · exact .inl ⟨_, AccessFailure.kind_eq (canFail := (· = .other)) hk⟩
  rcases hkind with ⟨a, hk | hk⟩ | ⟨w, hk⟩
  · simp [hk]
  · simp [hk]
  · simp [hk]

end Sys2Proof.Machine
end

section
/-! PROOFS, family 70_reset_and_hazards: what the loader and the bring-up leave, and the RAM bytes that the word placed
for the next fetch shows; then the statements about the bring-up, the placed word and the storage at reset. -/

namespace Sys2Proof.Machine

/-! ### The bring-up (R130 to R133) -/

/-- Adding devices one by one appends them in the order given (R36, R131). -/
theorem foldl_addDevice (devices : List Device) (s : State) :
    devices.foldl State.addDevice s = { s with devices := s.devices ++ devices } := by
  induction devices generalizing s with
  | nil => simp
  | cons d rest ih => simp [ih, State.addDevice]

/-- The loader touches no Core: registers and latch stay (R132). -/
theorem loadImage_core {image : List (Word × Byte)} {s t : State} {u : Unit} (h : loadImage s image = .ok u t) :
    t.regs = s.regs ∧ t.failure = s.failure := by
  induction image generalizing s with
  | nil => cases h; exact ⟨rfl, rfl⟩
  | cons c rest ih =>
    obtain ⟨_, s1, hwrite, hrest⟩ := BusResult.andThen_ok h
    obtain ⟨hregs, -, hlatch, -⟩ := busWrite_keeps hwrite
    obtain ⟨ihregs, ihlatch⟩ := ih hrest
    exact ⟨ihregs.trans hregs, ihlatch.trans hlatch⟩

/-- A bring-up that succeeds loaded the whole image into the devices given, and then set the pc (R130). -/
theorem boot_ok {devices : List Device} {image : List (Word × Byte)} {entryPc : Word} {u : Unit} {s : State}
    (h : boot devices image entryPc = .ok u s) :
    ∃ s1, loadImage { State.reset with devices := devices } image = .ok () s1 ∧ s = s1.setPc entryPc := by
  obtain ⟨_, s1, hload, hpc⟩ := BusResult.andThen_ok h
  rw [foldl_addDevice] at hload
  cases hpc
  exact ⟨s1, hload, rfl⟩

/-! ### The word placed for the next fetch (R45) -/

theorem byteOfWord_eq_extractLsb' (w : Word) (k : Nat) : byteOfWord w k = w.extractLsb' (8 * k) 8 :=
  BitVec.setWidth_ushiftRight_eq_extractLsb

/-- The devices once the first `k` bytes of the word are placed, at pc, pc + 1, and so on. -/
def placeBytes (devices : List Device) (pc w : Word) : Nat → List Device
  | 0 => devices
  | k + 1 => placeByte (placeBytes devices pc w k) (pc + BitVec.ofNat 32 k) (byteOfWord w k)

theorem State.withFetchWord_eq (s : State) {w : Nat} (hw : w < 2 ^ 32) :
    s.withFetchWord 32 w =
      { s with failure := none, devices := placeBytes s.devices s.pc (BitVec.ofNat 32 w) 4 } := by
  rw [State.withFetchWord, placeWord, Nat.mod_eq_of_lt hw]
  simp [placeBytes]

/-- Four addresses in a row are distinct, also where they wrap (R10, D3). -/
theorem add_ofNat_ne {j k : Nat} (hjk : j < k) (hk : k < 4) (a : Word) :
    a + BitVec.ofNat 32 j ≠ a + BitVec.ofNat 32 k := by
  intro h
  have hn := congrArg BitVec.toNat h
  simp only [BitVec.toNat_add, BitVec.toNat_ofNat] at hn
  omega

/-- On canonical storage the first `k` placed bytes are the RAM bytes at pc, pc + 1, and so on; the storage stays
canonical and an accepted bus accepted: each further byte keeps those before it. -/
theorem placeBytes_spec (s : State) (w : Word) (hm : s.memoryOk = true) {k : Nat} (hk : k ≤ 4) :
    (∀ j, j < k → State.ramByte { s with devices := placeBytes s.devices s.pc w k } (s.pc + BitVec.ofNat 32 j) =
      some (w.extractLsb' (8 * j) 8)) ∧
    State.memoryOk { s with devices := placeBytes s.devices s.pc w k } = true ∧
    (s.busOk = true → State.busOk { s with devices := placeBytes s.devices s.pc w k } = true) := by
  induction k with
  | zero => exact ⟨fun j hj => absurd hj (Nat.not_lt_zero j), hm, id⟩
  | succ k ih =>
    obtain ⟨ihbytes, ihmem, ihbus⟩ := ih (by omega)
    obtain ⟨hnew, hold, hmem, hbus⟩ := placeByte_spec _ (s.pc + BitVec.ofNat 32 k) (byteOfWord w k) ihmem
    refine ⟨fun j hj => ?_, hmem, fun hb => hbus (ihbus hb)⟩
    rcases Nat.lt_succ_iff_lt_or_eq.mp hj with hlt | rfl
    · have hbyte := ihbytes j hlt
      exact (hold _ (add_ofNat_ne hlt hk s.pc) (by simp [hbyte])).trans hbyte
    · rw [← byteOfWord_eq_extractLsb']
      exact hnew

/-! ### The statements -/

/-- Settles O52: the loader keeps the new Core's registers and latch and the configuration of the devices given. -/
theorem bootPreparesTheRun : Obligations.BootPreparesTheRun := by
  intro devices image entryPc s h
  obtain ⟨s1, hload, rfl⟩ := boot_ok h
  obtain ⟨hregs, hlatch⟩ := loadImage_core hload
  obtain ⟨hconf, -⟩ := loadImage_keeps hload
  exact ⟨rfl, fun i => (State.reg_congr hregs i).trans (State.reset_reg i), hlatch, hconf⟩

/-- Settles O53: the four placed bytes are RAM's at pc .. pc+3, so the fetch reads the word back, and the placing has
cleared the latch. -/
theorem placedWordRunsNext : Obligations.PlacedWordRunsNext := by
  intro s w hw hm
  rw [State.withFetchWord_eq s hw]
  obtain ⟨hbytes, -, hbus⟩ := placeBytes_spec { s with failure := none } (BitVec.ofNat 32 w) hm (le_refl 4)
  have hfetch := fetch_of_ramWord hbytes
  exact ⟨hfetch, rfl, rfl, fun hb i hd => step_of_decoded (hbus hb) rfl hfetch hd⟩

/-- Settles O45: the bus of `State.reset` holds no device. -/
theorem resetStorageIsCanonical : Obligations.ResetStorageIsCanonical := ⟨rfl, rfl⟩

end Sys2Proof.Machine
end
